-- ==== Sys2Proof/Word.lean ====
section
/-! DEFINITION. The word types of the machine: every value of the spec is an unsigned integer of a fixed width (R9). -/

namespace Sys2Proof

/-- A value of a general register, a timer or a memory cell: 8 bits (R20, R30, R50). -/
abbrev Byte := BitVec 8

/-- A value of `I`, `PC` or a stack entry, and an instruction word: 16 bits (R23, R24, R25, R70). -/
abbrev Word := BitVec 16

/-- The fields `x` and `y`: a register index of 4 bits, so that it always names a register (R22). -/
abbrev RegIdx := BitVec 4

/-- The field `nnn`: a 12-bit address (R72). -/
abbrev Addr := BitVec 12

end Sys2Proof
end

