-- ==== Sys2Proof/Machine/Flags.lean ====
section
/-! DEFINITION. The values VF takes (R126 to R130, R132) and the 8-bit results beside them (R20, R132). There is no other
flag (R34). -/

namespace Sys2Proof.Machine

/-- A flag value: 1 or 0. -/
def flagOf (c : Bool) : Byte := if c then 1 else 0

/-- ADD's carry out of bit 7: 1 iff `vx + vy > 255` (R126). -/
def carryFlag (vx vy : Byte) : Byte := flagOf (255 < vx.toNat + vy.toNat)

/-- SUB's and SUBN's not-borrow: 1 iff the minuend is STRICTLY greater (R127, R129, C5). -/
def notBorrowFlag (minuend subtrahend : Byte) : Byte := flagOf (subtrahend.toNat < minuend.toNat)

/-- SHR's flag: bit 0 of the old value (R128). -/
def lowBitFlag (vx : Byte) : Byte := flagOf (vx.getLsbD 0)

/-- SHL's flag: bit 7 of the old value (R130). -/
def highBitFlag (vx : Byte) : Byte := flagOf (vx.getLsbD 7)

/-- `sum mod 256` of the unbounded sum (R121, R126, R132). -/
def sumByte (a b : Byte) : Byte := BitVec.ofNat 8 (a.toNat + b.toNat)

/-- `(a + 256 - b) mod 256` (R127, R129, R132). -/
def differenceByte (a b : Byte) : Byte := BitVec.ofNat 8 (a.toNat + 256 - b.toNat)

/-- `vx >> 1` (R128). -/
def shiftRightByte (a : Byte) : Byte := BitVec.ofNat 8 (a.toNat / 2)

/-- `(vx << 1) mod 256` (R130). -/
def shiftLeftByte (a : Byte) : Byte := BitVec.ofNat 8 (a.toNat * 2)

end Sys2Proof.Machine
end

