-- ==== Sys2Proof/Syntax.lean ====
section
/-! DEFINITION. The instruction set: one constructor per row of spec/opcode_table.json (R75, R80). -/

namespace Sys2Proof

/-- An instruction. Every operand has the exact width of its field (R72, R73); SHR and SHL carry the `y` they
decode and do not read (R128, R130; log entry 16). An UNKNOWN word (R76) is no row of the table and no
instruction here: `decode` rejects it by name and `step` executes it as the no-op R76 makes it. -/
inductive Instr where
  /-- `CLS`, 00E0 (R160) -/
  | cls
  /-- `RET`, 00EE (R101) -/
  | ret
  /-- `JP nnn`, 1nnn (R102) -/
  | jp (nnn : Addr)
  /-- `CALL nnn`, 2nnn (R103) -/
  | call (nnn : Addr)
  /-- `SE Vx, kk`, 3xkk (R104) -/
  | seImm (x : RegIdx) (kk : Byte)
  /-- `SNE Vx, kk`, 4xkk (R105) -/
  | sneImm (x : RegIdx) (kk : Byte)
  /-- `SE Vx, Vy`, 5xy0 (R106) -/
  | seReg (x y : RegIdx)
  /-- `LD Vx, kk`, 6xkk (R120) -/
  | ldImm (x : RegIdx) (kk : Byte)
  /-- `ADD Vx, kk`, 7xkk (R121) -/
  | addImm (x : RegIdx) (kk : Byte)
  /-- `LD Vx, Vy`, 8xy0 (R122) -/
  | ldReg (x y : RegIdx)
  /-- `OR Vx, Vy`, 8xy1 (R123) -/
  | orReg (x y : RegIdx)
  /-- `AND Vx, Vy`, 8xy2 (R124) -/
  | andReg (x y : RegIdx)
  /-- `XOR Vx, Vy`, 8xy3 (R125) -/
  | xorReg (x y : RegIdx)
  /-- `ADD Vx, Vy`, 8xy4 (R126) -/
  | addReg (x y : RegIdx)
  /-- `SUB Vx, Vy`, 8xy5 (R127) -/
  | sub (x y : RegIdx)
  /-- `SHR Vx`, 8xy6 (R128); `y` is not read -/
  | shr (x y : RegIdx)
  /-- `SUBN Vx, Vy`, 8xy7 (R129) -/
  | subn (x y : RegIdx)
  /-- `SHL Vx`, 8xyE (R130); `y` is not read -/
  | shl (x y : RegIdx)
  /-- `SNE Vx, Vy`, 9xy0 (R107) -/
  | sneReg (x y : RegIdx)
  /-- `LD I, nnn`, Annn (R140) -/
  | ldI (nnn : Addr)
  /-- `JP V0, nnn`, Bnnn (R108) -/
  | jpV0 (nnn : Addr)
  /-- `RND Vx, kk`, Cxkk (R131) -/
  | rnd (x : RegIdx) (kk : Byte)
  /-- `DRW Vx, Vy, n`, Dxyn (R161) -/
  | drw (x y : RegIdx) (n : BitVec 4)
  /-- `SKP Vx`, Ex9E (R170) -/
  | skp (x : RegIdx)
  /-- `SKNP Vx`, ExA1 (R171) -/
  | sknp (x : RegIdx)
  /-- `LD Vx, DT`, Fx07 (R172) -/
  | ldVxDt (x : RegIdx)
  /-- `LD Vx, K`, Fx0A (R173) -/
  | ldVxK (x : RegIdx)
  /-- `LD DT, Vx`, Fx15 (R174) -/
  | ldDtVx (x : RegIdx)
  /-- `LD ST, Vx`, Fx18 (R175) -/
  | ldStVx (x : RegIdx)
  /-- `ADD I, Vx`, Fx1E (R141) -/
  | addI (x : RegIdx)
  /-- `LD F, Vx`, Fx29 (R142) -/
  | ldF (x : RegIdx)
  /-- `LD B, Vx`, Fx33 (R143) -/
  | ldB (x : RegIdx)
  /-- `LD [I], Vx`, Fx55 (R144) -/
  | ldMemVx (x : RegIdx)
  /-- `LD Vx, [I]`, Fx65 (R145) -/
  | ldVxMem (x : RegIdx)
  deriving DecidableEq, Repr

end Sys2Proof
end

