-- ==== Sys2Proof/WellFormed.lean ====
section
/-! DEFINITION. What makes an instruction, and what makes a program image, acceptable (R22, R73, R236). -/

namespace Sys2Proof

/-- Every operand lies in the range R72 and R73 give its field: a register index or count below 16, an
immediate below 256, an address below 4096. The operand types have exactly these widths, so no instruction
fails the check (R22: "always valid"; Laws/Decode.lean `Instr.wellFormed_all`). -/
def Instr.wellFormed : Instr → Bool
  | .cls | .ret => true
  | .jp nnn | .call nnn | .ldI nnn | .jpV0 nnn => nnn.toNat < 4096
  | .seImm x kk | .sneImm x kk | .ldImm x kk | .addImm x kk | .rnd x kk => x.toNat < 16 && kk.toNat < 256
  | .seReg x y | .sneReg x y | .ldReg x y | .orReg x y | .andReg x y | .xorReg x y | .addReg x y
  | .sub x y | .shr x y | .subn x y | .shl x y => x.toNat < 16 && y.toNat < 16
  | .drw x y n => x.toNat < 16 && y.toNat < 16 && n.toNat < 16
  | .skp x | .sknp x | .ldVxDt x | .ldVxK x | .ldDtVx x | .ldStVx x | .addI x | .ldF x | .ldB x
  | .ldMemVx x | .ldVxMem x => x.toNat < 16

/-- `MAX_PROGRAM` of R7: the largest program a Load accepts. -/
def maxProgram : Nat := 4096 - 0x200

/-- A program image a Load accepts: at most 3584 bytes, and nothing else is checked (R236: "any byte sequence
is accepted as a program"). -/
def wellFormedImage (buf : List Byte) : Bool :=
  buf.length ≤ maxProgram

end Sys2Proof
end

