-- ==== Sys2Proof/Decode.lean ====
section
/-! DEFINITION. The decoder (R70 to R78), total on any bytes, and after it the encoder written from the formats of R74. -/

namespace Sys2Proof

/-- The opcode tags of R75: one per row of the decoder table, and `UNKNOWN`. -/
inductive Opcode where
  | cls | ret | jp | call | seImm | sneImm | seReg | ldImm | addImm | ldReg | orReg | andReg
  | xorReg | addReg | sub | shr | subn | shl | sneReg | ldI | jpV0 | rnd | drw | skp
  | sknp | ldVxDt | ldVxK | ldDtVx | ldStVx | addI | ldF | ldB | ldMemVx | ldVxMem
  | unknown
  deriving DecidableEq, Repr

/-- The record R75's decoder returns: the tag and every field, whatever the opcode (R72). -/
structure Decoded where
  tag : Opcode
  x : RegIdx
  y : RegIdx
  n : BitVec 4
  kk : Byte
  nnn : Addr
  deriving DecidableEq, Repr

/-- One row of R75's table: a word belongs to it when `w & mask = pattern`. -/
structure Row where
  tag : Opcode
  pattern : Word
  mask : Word
  deriving DecidableEq, Repr

/-- Why bytes are no instruction. -/
inductive Reject where
  /-- Fewer than the two bytes of an instruction (R70). -/
  | truncated
  /-- The word `w` matches no row: UNKNOWN (R76, R77). `step` runs it as a no-op; it is not an error. -/
  | unknown (w : Word)
  deriving DecidableEq, Repr

/-! ## Bytes and words -/

/-- The instruction word of two bytes, the first one most significant (R53). -/
def wordOfBytes (hi lo : Byte) : Word := hi ++ lo

/-- The byte of a word that memory holds first (R53). -/
def highByte (w : Word) : Byte := w.extractLsb' 8 8

/-- The byte of a word that memory holds second (R53). -/
def lowByte (w : Word) : Byte := w.extractLsb' 0 8

/-! ## The decoder -/

/-- R75's table, rows CLS to ADD_IMM. -/
def controlRows : List Row :=
  [ ⟨.cls, 0x00E0, 0xFFFF⟩,  -- CLS, R160
    ⟨.ret, 0x00EE, 0xFFFF⟩,  -- RET, R101
    ⟨.jp, 0x1000, 0xF000⟩,  -- JP, R102
    ⟨.call, 0x2000, 0xF000⟩,  -- CALL, R103
    ⟨.seImm, 0x3000, 0xF000⟩,  -- SE_IMM, R104
    ⟨.sneImm, 0x4000, 0xF000⟩,  -- SNE_IMM, R105
    ⟨.seReg, 0x5000, 0xF00F⟩,  -- SE_REG, R106
    ⟨.ldImm, 0x6000, 0xF000⟩,  -- LD_IMM, R120
    ⟨.addImm, 0x7000, 0xF000⟩]  -- ADD_IMM, R121

/-- R75's table, rows LD_REG to SNE_REG. -/
def aluRows : List Row :=
  [ ⟨.ldReg, 0x8000, 0xF00F⟩,  -- LD_REG, R122
    ⟨.orReg, 0x8001, 0xF00F⟩,  -- OR, R123
    ⟨.andReg, 0x8002, 0xF00F⟩,  -- AND, R124
    ⟨.xorReg, 0x8003, 0xF00F⟩,  -- XOR, R125
    ⟨.addReg, 0x8004, 0xF00F⟩,  -- ADD_REG, R126
    ⟨.sub, 0x8005, 0xF00F⟩,  -- SUB, R127
    ⟨.shr, 0x8006, 0xF00F⟩,  -- SHR, R128
    ⟨.subn, 0x8007, 0xF00F⟩,  -- SUBN, R129
    ⟨.shl, 0x800E, 0xF00F⟩,  -- SHL, R130
    ⟨.sneReg, 0x9000, 0xF00F⟩]  -- SNE_REG, R107

/-- R75's table, rows LD_I to SKNP. -/
def addressRows : List Row :=
  [ ⟨.ldI, 0xA000, 0xF000⟩,  -- LD_I, R140
    ⟨.jpV0, 0xB000, 0xF000⟩,  -- JP_V0, R108
    ⟨.rnd, 0xC000, 0xF000⟩,  -- RND, R131
    ⟨.drw, 0xD000, 0xF000⟩,  -- DRW, R161
    ⟨.skp, 0xE09E, 0xF0FF⟩,  -- SKP, R170
    ⟨.sknp, 0xE0A1, 0xF0FF⟩]  -- SKNP, R171

/-- R75's table, rows LD_VX_DT to LD_VX_MEM. -/
def miscRows : List Row :=
  [ ⟨.ldVxDt, 0xF007, 0xF0FF⟩,  -- LD_VX_DT, R172
    ⟨.ldVxK, 0xF00A, 0xF0FF⟩,  -- LD_VX_K, R173
    ⟨.ldDtVx, 0xF015, 0xF0FF⟩,  -- LD_DT_VX, R174
    ⟨.ldStVx, 0xF018, 0xF0FF⟩,  -- LD_ST_VX, R175
    ⟨.addI, 0xF01E, 0xF0FF⟩,  -- ADD_I, R141
    ⟨.ldF, 0xF029, 0xF0FF⟩,  -- LD_F, R142
    ⟨.ldB, 0xF033, 0xF0FF⟩,  -- LD_B, R143
    ⟨.ldMemVx, 0xF055, 0xF0FF⟩,  -- LD_MEM_VX, R144
    ⟨.ldVxMem, 0xF065, 0xF0FF⟩]  -- LD_VX_MEM, R145

/-- R75's table, in its order. -/
def opcodeTable : List Row := controlRows ++ aluRows ++ addressRows ++ miscRows

/-- `(w & mask) = match` (R75). -/
def Row.matches (r : Row) (w : Word) : Bool := w &&& r.mask == r.pattern

/-- `Tag(w)` of R75: the tag of the one row that matches (R78: at most one does), `UNKNOWN` when none does. -/
def tagOf (w : Word) : Opcode :=
  match opcodeTable.find? (fun r => r.matches w) with
  | some r => r.tag
  | none => .unknown

/-- `Decode(w)` of R75: the tag and all the fields of R72. It never fails. -/
def decodeFields (w : Word) : Decoded where
  tag := tagOf w
  x := w.extractLsb' 8 4
  y := w.extractLsb' 4 4
  n := w.extractLsb' 0 4
  kk := w.extractLsb' 0 8
  nnn := w.extractLsb' 0 12

/-- The instruction a decoded record stands for, with the operands of its format (R73, R74); none for `UNKNOWN`. -/
def Decoded.toInstr (d : Decoded) : Option Instr :=
  match d.tag with
  | .cls => some .cls
  | .ret => some .ret
  | .jp => some (.jp d.nnn)
  | .call => some (.call d.nnn)
  | .seImm => some (.seImm d.x d.kk)
  | .sneImm => some (.sneImm d.x d.kk)
  | .seReg => some (.seReg d.x d.y)
  | .ldImm => some (.ldImm d.x d.kk)
  | .addImm => some (.addImm d.x d.kk)
  | .ldReg => some (.ldReg d.x d.y)
  | .orReg => some (.orReg d.x d.y)
  | .andReg => some (.andReg d.x d.y)
  | .xorReg => some (.xorReg d.x d.y)
  | .addReg => some (.addReg d.x d.y)
  | .sub => some (.sub d.x d.y)
  | .shr => some (.shr d.x d.y)
  | .subn => some (.subn d.x d.y)
  | .shl => some (.shl d.x d.y)
  | .sneReg => some (.sneReg d.x d.y)
  | .ldI => some (.ldI d.nnn)
  | .jpV0 => some (.jpV0 d.nnn)
  | .rnd => some (.rnd d.x d.kk)
  | .drw => some (.drw d.x d.y d.n)
  | .skp => some (.skp d.x)
  | .sknp => some (.sknp d.x)
  | .ldVxDt => some (.ldVxDt d.x)
  | .ldVxK => some (.ldVxK d.x)
  | .ldDtVx => some (.ldDtVx d.x)
  | .ldStVx => some (.ldStVx d.x)
  | .addI => some (.addI d.x)
  | .ldF => some (.ldF d.x)
  | .ldB => some (.ldB d.x)
  | .ldMemVx => some (.ldMemVx d.x)
  | .ldVxMem => some (.ldVxMem d.x)
  | .unknown => none

/-- The instruction of a word, or the rejection by name of an UNKNOWN word (R75, R76). -/
def decode (w : Word) : Except Reject Instr :=
  match (decodeFields w).toInstr with
  | some i => .ok i
  | none => .error (.unknown w)

/-- Decoding from bytes: every instruction is two bytes, the high one first (R53, R70). -/
def decodeBytes : List Byte → Except Reject (Instr × List Byte)
  | hi :: lo :: rest =>
    match decode (wordOfBytes hi lo) with
    | .ok i => .ok (i, rest)
    | .error r => .error r
  | _ => .error .truncated

/-! ## The encoder -/

/-- Format A of R74: `op[4] nnn[12]`. -/
def formatA (op : BitVec 4) (nnn : Addr) : Word := op ++ nnn

/-- Format XK of R74: `op[4] x[4] kk[8]`. -/
def formatXK (op : BitVec 4) (x : RegIdx) (kk : Byte) : Word := (op ++ x) ++ kk

/-- Formats XYF and XYN of R74: `op[4] x[4] y[4]` and a function nibble or a count. -/
def formatXYN (op : BitVec 4) (x y : RegIdx) (n : BitVec 4) : Word := ((op ++ x) ++ y) ++ n

/-- Format XF of R74: `op[4] x[4] f[8]`. -/
def formatXF (op : BitVec 4) (x : RegIdx) (f : Byte) : Word := (op ++ x) ++ f

/-- The word of an instruction, from the formats of R74 and the words of R80. -/
def encode : Instr → Word
  | .cls => 0x00E0
  | .ret => 0x00EE
  | .jp nnn => formatA 0x1 nnn
  | .call nnn => formatA 0x2 nnn
  | .seImm x kk => formatXK 0x3 x kk
  | .sneImm x kk => formatXK 0x4 x kk
  | .seReg x y => formatXYN 0x5 x y 0x0
  | .ldImm x kk => formatXK 0x6 x kk
  | .addImm x kk => formatXK 0x7 x kk
  | .ldReg x y => formatXYN 0x8 x y 0x0
  | .orReg x y => formatXYN 0x8 x y 0x1
  | .andReg x y => formatXYN 0x8 x y 0x2
  | .xorReg x y => formatXYN 0x8 x y 0x3
  | .addReg x y => formatXYN 0x8 x y 0x4
  | .sub x y => formatXYN 0x8 x y 0x5
  | .shr x y => formatXYN 0x8 x y 0x6
  | .subn x y => formatXYN 0x8 x y 0x7
  | .shl x y => formatXYN 0x8 x y 0xE
  | .sneReg x y => formatXYN 0x9 x y 0x0
  | .ldI nnn => formatA 0xA nnn
  | .jpV0 nnn => formatA 0xB nnn
  | .rnd x kk => formatXK 0xC x kk
  | .drw x y n => formatXYN 0xD x y n
  | .skp x => formatXF 0xE x 0x9E
  | .sknp x => formatXF 0xE x 0xA1
  | .ldVxDt x => formatXF 0xF x 0x07
  | .ldVxK x => formatXF 0xF x 0x0A
  | .ldDtVx x => formatXF 0xF x 0x15
  | .ldStVx x => formatXF 0xF x 0x18
  | .addI x => formatXF 0xF x 0x1E
  | .ldF x => formatXF 0xF x 0x29
  | .ldB x => formatXF 0xF x 0x33
  | .ldMemVx x => formatXF 0xF x 0x55
  | .ldVxMem x => formatXF 0xF x 0x65

/-- The two bytes of an instruction, as memory holds them (R53). -/
def encodeBytes (i : Instr) : List Byte := [highByte (encode i), lowByte (encode i)]

/-- The tag of an instruction: the row of R75 it belongs to. -/
def Instr.opcode : Instr → Opcode
  | .cls => .cls
  | .ret => .ret
  | .jp _ => .jp
  | .call _ => .call
  | .seImm _ _ => .seImm
  | .sneImm _ _ => .sneImm
  | .seReg _ _ => .seReg
  | .ldImm _ _ => .ldImm
  | .addImm _ _ => .addImm
  | .ldReg _ _ => .ldReg
  | .orReg _ _ => .orReg
  | .andReg _ _ => .andReg
  | .xorReg _ _ => .xorReg
  | .addReg _ _ => .addReg
  | .sub _ _ => .sub
  | .shr _ _ => .shr
  | .subn _ _ => .subn
  | .shl _ _ => .shl
  | .sneReg _ _ => .sneReg
  | .ldI _ => .ldI
  | .jpV0 _ => .jpV0
  | .rnd _ _ => .rnd
  | .drw _ _ _ => .drw
  | .skp _ => .skp
  | .sknp _ => .sknp
  | .ldVxDt _ => .ldVxDt
  | .ldVxK _ => .ldVxK
  | .ldDtVx _ => .ldDtVx
  | .ldStVx _ => .ldStVx
  | .addI _ => .addI
  | .ldF _ => .ldF
  | .ldB _ => .ldB
  | .ldMemVx _ => .ldMemVx
  | .ldVxMem _ => .ldVxMem

/-- The instruction the decoder reads from a word numbered as spec/opcode_table.json numbers its bits: the bits at
and above `nbits` are zero, the word's high byte lies at the lower address (R53). -/
def decodeTableWord (nbits w : Nat) : Option Instr :=
  let word : Word := BitVec.ofNat 16 (w % 2 ^ nbits)
  match decodeBytes [highByte word, lowByte word] with
  | .ok (i, _) => some i
  | .error _ => none

end Sys2Proof
end

