-- ==== Sys2Proof/Config.lean ====
section
/-! DEFINITION. What an implementation fixes (the two open parameters of R7) and the free values (R133). -/

namespace Sys2Proof

/-- The two OPEN parameters of R7 (D8, D9). A machine holds them as plain data in `State.params`, which
nothing writes, so a statement about every state holds for every value of them. The type of `fontBase`
is the constraint `FONT_BASE + 80 ≤ 0x200`, that of `fontData` is the 80 glyph bytes of R231. -/
structure Params where
  fontBase : Fin 433
  fontData : Vector Byte 80
  deriving DecidableEq, Repr

/-- The conventional glyph table K8 of 93_implementation_defined.md, glyphs 0 to 7. PRESUMED, log entry 9. -/
def fontLow : List Byte :=
  [0xF0, 0x90, 0x90, 0x90, 0xF0,  0x20, 0x60, 0x20, 0x20, 0x70,
   0xF0, 0x10, 0xF0, 0x80, 0xF0,  0xF0, 0x10, 0xF0, 0x10, 0xF0,
   0x90, 0x90, 0xF0, 0x10, 0x10,  0xF0, 0x80, 0xF0, 0x10, 0xF0,
   0xF0, 0x80, 0xF0, 0x90, 0xF0,  0xF0, 0x10, 0x20, 0x40, 0x40]

/-- The conventional glyph table K8, glyphs 8 to F. PRESUMED, log entry 9. -/
def fontHigh : List Byte :=
  [0xF0, 0x90, 0xF0, 0x90, 0xF0,  0xF0, 0x90, 0xF0, 0x10, 0xF0,
   0xF0, 0x90, 0xF0, 0x90, 0x90,  0xE0, 0x90, 0xE0, 0x90, 0xE0,
   0xF0, 0x80, 0x80, 0x80, 0xF0,  0xE0, 0x90, 0x90, 0x90, 0xE0,
   0xF0, 0x80, 0xF0, 0x80, 0xF0,  0xF0, 0x80, 0xF0, 0x80, 0x80]

/-- The parameters `State.reset` names: the example base 0x050 (K9, log entry 8) and the table K8
(log entry 9). Both PRESUMED (unsafe): the spec keeps them open, and no statement rests on them. -/
def Params.conventional : Params where
  fontBase := 0x050
  fontData := ⟨(fontLow ++ fontHigh).toArray, rfl⟩

/-- `Draw8()` (R133, U13): the free byte of the `k`-th random draw. It has no body, so nothing can prove a
value of it: a claim holds whatever bytes are drawn. Log entry 10. -/
opaque Config.drawByte : Nat → Byte

end Sys2Proof
end

