-- ==== Sys2Proof/Machine/State.lean ====
section
/-! DEFINITION. The machine's state (10_state.md), the faults (60_exceptions.md R200), the refusals, and reset (R36, R230 to R233). -/

namespace Sys2Proof.Machine

/-- The model faults of R200. Each carries the record `(info, a)`: the value R200 names and the address of the
faulting instruction; `Fault.code` (Machine/Ops.lean) is its number. The source calls each case undefined, so a
run that faults has no meaning (R201): stopping is safe. -/
inductive Fault where
  /-- FETCH_RANGE, 1: raised by every step's fetch when `PC + 1 ≥ 4096` (R53); `info` is `PC`. Safe. -/
  | fetchRange (info : Nat) (a : Word)
  /-- READ_RANGE, 2: raised by DRW and LD Vx,[I] at a read address ≥ 4096 (R51); `info` is the address. Safe. -/
  | readRange (info : Nat) (a : Word)
  /-- WRITE_RANGE, 3: raised by LD B and LD [I] at a write address ≥ 4096 (R52); `info` is the address. Safe. -/
  | writeRange (info : Nat) (a : Word)
  /-- STACK_OVERFLOW, 4: raised by CALL when `SP = 16` (R27); `info` is the advanced `PC`. Safe. -/
  | stackOverflow (info : Nat) (a : Word)
  /-- STACK_UNDERFLOW, 5: raised by RET when `SP = 0` (R27); `info` is the advanced `PC`. Safe. -/
  | stackUnderflow (info : Nat) (a : Word)
  /-- KEY_RANGE, 6: raised by SKP and SKNP when `V[x] ≥ 16` (R177); `info` is `V[x]`. Safe. -/
  | keyRange (info : Nat) (a : Word)
  deriving DecidableEq, Repr

/-- What the model does not run. Each is safe: nothing can be proved of what is refused. -/
inductive Refusal where
  /-- An instruction without a meaning, by its mnemonic: raised by an arm of `exec` only (no arm does). Safe. -/
  | notModelled (mnemonic : String)
  /-- A second Load (R237): raised by a session (Machine/Transactions.lean), never by a step. Safe. -/
  | secondLoad
  /-- A Load after the first Step (R237): raised by a session, never by a step. Safe. -/
  | loadAfterStep
  /-- A Step before the Load (D19, R234): raised by a session, never by a step. Safe. -/
  | stepBeforeLoad
  deriving DecidableEq, Repr

/-- Memory in one canonical form: addresses strictly rising, no entry equal to what an unlisted address reads as
(`Memory.wf`, Machine/Ops.lean). -/
abbrev Memory := List Host.Cell

/-- `Disp[c][r]`, column-major (R28). -/
abbrev Display := Vector (Vector Bool 32) 64

/-- The pending wait of LD Vx,K (R31, D12): `Idle`, or the captured key whose release it awaits. -/
inductive KeyWait where
  | idle
  | awaitingRelease (k : Fin 16)
  deriving DecidableEq, Repr, Inhabited

/-- The state of 10_state.md. `params` (R7) is written by nothing; `draws` is the model's own (R133). -/
structure State where
  /-- the open parameters FONT_BASE and FONT_DATA (R7, D8, D9); fixed (log entries 8 and 9) -/
  params : Params
  /-- V0..VF (R20); V[15] is the flag register (R21) -/
  v : Vector Byte 16
  /-- the index register I (R23) -/
  i : Word
  /-- the program counter (R24) -/
  pc : Word
  /-- the number of stack entries in use, 0..16 (R25) -/
  sp : Fin 17
  /-- the return addresses (R25) -/
  stack : Vector Word 16
  /-- the 4096 bytes (R32, R50) -/
  mem : Memory
  /-- the pixels (R28) -/
  disp : Display
  /-- the key flags, written by the host only (R29) -/
  key : Vector Bool 16
  /-- the delay timer (R30) -/
  dt : Byte
  /-- the sound timer (R30) -/
  st : Byte
  /-- the key-wait state (R31) -/
  kw : KeyWait
  /-- the fault mark of R35 -/
  faulted : Option Fault
  /-- the number of random draws taken: the index of the next free byte (R133, log entry 10) -/
  draws : Nat
  deriving DecidableEq, Repr

/-- The machine right after creation (R36, R230 to R233): `PC = 0x200`, `SP = 0`, `KW = Idle`, no fault, the font
in place (an unlisted address of its region reads the glyph byte, `Memory.unlisted`). Every element R36 leaves
unspecified has the value the log names (entries 1 to 7), DESIGN CHOICE, unsafe: the spec says any value, and
`State.create` (Machine/Creation.lean) takes them all as arguments. -/
def State.reset : State where
  params := Params.conventional
  v := Vector.replicate 16 0
  i := 0
  pc := 0x200
  sp := 0
  stack := Vector.replicate 16 0
  mem := []
  disp := Vector.replicate 64 (Vector.replicate 32 false)
  key := Vector.replicate 16 false
  dt := 0
  st := 0
  kw := .idle
  faulted := none
  draws := 0

end Sys2Proof.Machine
end

