-- ==== Sys2Proof/Machine/Ops.lean ====
section
/-! DEFINITION. The named operations over memory, registers, stack, display and keys; fetching; raising a fault. -/

namespace Sys2Proof.Machine

/-! ## Faults

There is no trap entry and no trap return (R203, R204): taking an exception is, on this hardware, ending the step
with the record of R200. `State.instrAddr` is the one place that says what the record's `a` is. -/

/-- The number of a fault (R200, D21). -/
def Fault.code : Fault → Nat
  | .fetchRange _ _ => 1
  | .readRange _ _ => 2
  | .writeRange _ _ => 3
  | .stackOverflow _ _ => 4
  | .stackUnderflow _ _ => 5
  | .keyRange _ _ => 6

/-- The value a fault records (R200). -/
def Fault.info : Fault → Nat
  | .fetchRange n _ | .readRange n _ | .writeRange n _ | .stackOverflow n _ | .stackUnderflow n _ | .keyRange n _ => n

/-- The address of the faulting instruction a fault records (R200). -/
def Fault.address : Fault → Word
  | .fetchRange _ a | .readRange _ a | .writeRange _ a | .stackOverflow _ a | .stackUnderflow _ a | .keyRange _ a => a

/-- The address `a` of the instruction in execution: on entry `PC = (a + 2) mod 65536` (R71), and no rule moves `PC`
before a check that can raise. -/
def State.instrAddr (s : State) : Word := s.pc - 2

/-- A step's outcome from an operation that may raise (R200): a raised fault ends the step. -/
def toOutcome : Except Fault State → Host.Outcome State Fault Refusal
  | .ok s => .next s
  | .error f => .fault f

/-! ## Memory (R50 to R59) -/

/-- What an address with no entry reads as: the creation contents. R231 puts glyph byte `FONT_DATA[a − FONT_BASE]` in
the font's region; elsewhere R36 says any value and the model reads 0 (DESIGN CHOICE, unsafe, log entry 5). -/
def Memory.unlisted (p : Params) (a : Nat) : Byte :=
  if h : p.fontBase.val ≤ a ∧ a < p.fontBase.val + 80 then p.fontData[a - p.fontBase.val]'(by omega) else 0

/-- The byte at an address. -/
def Memory.read (p : Params) : Memory → Nat → Byte
  | [], a => Memory.unlisted p a
  | (k, b) :: m, a => if k = a then b else Memory.read p m a

/-- Memory with an entry in its place by rising address. -/
def Memory.insert (a : Nat) (b : Byte) : Memory → Memory
  | [] => [(a, b)]
  | (k, c) :: m => if a < k then (a, b) :: (k, c) :: m else (k, c) :: Memory.insert a b m

/-- Memory without an entry for an address. -/
def Memory.erase (m : Memory) (a : Nat) : Memory := m.filter fun c => c.1 != a

/-- One byte written: the canonical form is kept, so a byte equal to what the unlisted address reads as is unlisted. -/
def Memory.write (p : Params) (m : Memory) (a : Nat) (b : Byte) : Memory :=
  if b = Memory.unlisted p a then m.erase a else (m.erase a).insert a b

/-- Bytes written from an address upward. -/
def Memory.writeBytes (p : Params) : Memory → Nat → List Byte → Memory
  | m, _, [] => m
  | m, a, b :: bs => Memory.writeBytes p (m.write p a b) (a + 1) bs

/-- The memory whose bytes below 4096 are those of a function. -/
def Memory.ofBytes (p : Params) (f : Nat → Byte) : Memory :=
  ((List.range' 0 4096).filter fun a => f a != Memory.unlisted p a).map fun a => (a, f a)

/-- The canonical form from an address on: rising addresses below 4096, no entry equal to the unlisted value. -/
def Memory.wfFrom (p : Params) : Nat → Memory → Bool
  | _, [] => true
  | lo, (a, b) :: m => decide (lo ≤ a) && decide (a < 4096) && b != Memory.unlisted p a && Memory.wfFrom p (a + 1) m

/-- The canonical form of memory. -/
def Memory.wf (p : Params) (m : Memory) : Bool := Memory.wfFrom p 0 m

/-- The byte at an address in the machine's memory. -/
def State.byteAt (s : State) (a : Nat) : Byte := Memory.read s.params s.mem a

/-- `MemRead(a, 1)` (R51). -/
def memRead (s : State) (addr : Nat) : Except Fault Byte :=
  if 4096 ≤ addr then .error (.readRange addr s.instrAddr) else .ok (s.byteAt addr)

/-- `MemWrite(a, 1, v)` (R52). -/
def memWrite (s : State) (addr : Nat) (b : Byte) : Except Fault State :=
  if 4096 ≤ addr then .error (.writeRange addr s.instrAddr)
  else .ok { s with mem := Memory.write s.params s.mem addr b }

/-- `MemWrite` of bytes at rising addresses; the first one out of range raises (R58, R202). -/
def storeBytes (s : State) (addr : Nat) : List Byte → Except Fault State
  | [] => .ok s
  | b :: bs =>
    match memWrite s addr b with
    | .ok t => storeBytes t (addr + 1) bs
    | .error f => .error f

/-- `Fetch()` (R53): two bytes at `PC`, the first most significant; `PC + 1` is not wrapped (D15). -/
def fetch (s : State) : Except Fault Word :=
  if 4096 ≤ s.pc.toNat + 1 then .error (.fetchRange s.pc.toNat s.pc)
  else .ok (wordOfBytes (s.byteAt s.pc.toNat) (s.byteAt (s.pc.toNat + 1)))

/-! ## Registers (R20 to R24) -/

/-- `V[x]` (R20, R22). -/
def State.getV (s : State) (x : RegIdx) : Byte := s.v[x.toNat]'x.isLt

/-- `V[x] <- b` (R20, R22). -/
def State.setV (s : State) (x : RegIdx) (b : Byte) : State := { s with v := s.v.set x.toNat b x.isLt }

/-- The flag register VF (R21). -/
abbrev flagReg : RegIdx := 15

/-- `V[15] <- f; V[x] <- b`: the flag is written first, the result second (R79, D4). -/
def State.setFlagThenV (s : State) (x : RegIdx) (f b : Byte) : State := (s.setV flagReg f).setV x b

/-- The advance of every step, `PC <- (PC + 2) mod 65536` (R24, R71). -/
def State.advance (s : State) : State := { s with pc := s.pc + 2 }

/-- `Skip()` (R100): 2 more on the advanced `PC`. -/
def State.skip (s : State) : State := { s with pc := s.pc + 2 }

/-- The skip of R104 to R107, R170 and R171: taken when the condition holds. -/
def State.skipIf (s : State) (c : Bool) : State := if c then s.skip else s

/-- `PC <- (PC + 65536 - 2) mod 65536`: back to the instruction in execution (R173). -/
def State.rollBack (s : State) : State := { s with pc := s.pc - 2 }

/-- `PC <- target`. -/
def State.jump (s : State) (target : Word) : State := { s with pc := target }

/-! ## The call stack (R25 to R27) -/

/-- `Push(v)` (R27): the entry is written, then counted. -/
def push (s : State) (w : Word) : Except Fault State :=
  if h : s.sp.val < 16 then
    .ok { s with stack := s.stack.set s.sp.val w h, sp := ⟨s.sp.val + 1, by omega⟩ }
  else .error (.stackOverflow s.pc.toNat s.instrAddr)

/-- `Pop()` (R27): the count goes down, then the entry there is read. -/
def pop (s : State) : Except Fault (Word × State) :=
  if h : 0 < s.sp.val then
    .ok (s.stack[s.sp.val - 1]'(by omega), { s with sp := ⟨s.sp.val - 1, by omega⟩ })
  else .error (.stackUnderflow s.pc.toNat s.instrAddr)

/-! ## Random bytes (R133) -/

/-- `Draw8()` (R133): the next free byte, and the state in which it is taken. -/
def draw8 (s : State) : Byte × State := (Config.drawByte s.draws, { s with draws := s.draws + 1 })

/-! ## Display (R28) -/

/-- `Disp[c][r]`. -/
def State.pixel (s : State) (c : Fin 64) (r : Fin 32) : Bool := s.disp[c.val][r.val]

/-- `Disp[c][r] <- b`. -/
def State.setPixel (s : State) (c : Fin 64) (r : Fin 32) (b : Bool) : State :=
  { s with disp := s.disp.set c.val (s.disp[c.val].set r.val b) }

/-! ## Keys (R29, R173, R177) -/

/-- `KeyIndex(v)` (R177). -/
def keyIndex (s : State) (b : Byte) : Except Fault (Fin 16) :=
  if h : b.toNat < 16 then .ok ⟨b.toNat, h⟩ else .error (.keyRange b.toNat s.instrAddr)

/-- `Key[k]` (R29). -/
def State.keyDown (s : State) (k : Fin 16) : Bool := s.key[k.val]

/-- `min { k | Key[k] = 1 }`, if any key is down (R173). -/
def State.lowestKey (s : State) : Option (Fin 16) := (List.finRange 16).find? fun k => s.keyDown k

end Sys2Proof.Machine
end

