-- ==== Sys2Proof/Machine/Operands.lean ====
section
/-! DEFINITION. The operand forms of R146 (the addressing modes) and the data each one reads. Register direct is
`State.getV`; an 8-bit immediate is used as it is (R73). -/

namespace Sys2Proof.Machine

/-- `zext_16(nnn)` (R9, R73): the 12-bit absolute address of JP, CALL and LD I. -/
def zext16 (nnn : Addr) : Word := nnn.setWidth 16

/-- Register plus absolute, `(zext_16(nnn) + V[0]) mod 65536`, formed in 16 bits (R108, D15). -/
def offsetTarget (s : State) (nnn : Addr) : Word := zext16 nnn + (s.getV 0).setWidth 16

/-- Indexed, `I + k`: an unbounded natural, never wrapped (R58, D16). -/
def indexed (s : State) (k : Nat) : Nat := s.i.toNat + k

/-- The index sum `(I + V[x]) mod 65536` (R141). -/
def indexSum (s : State) (x : RegIdx) : Word := s.i + (s.getV x).setWidth 16

/-- The font glyph address `(FONT_BASE + 5 * V[x]) mod 65536`; the digit is neither checked nor masked (R142, D25). -/
def glyphAddress (s : State) (x : RegIdx) : Word := BitVec.ofNat 16 (s.params.fontBase.val + 5 * (s.getV x).toNat)

/-- The three decimal digits of a byte, hundreds first (R143). -/
def bcdDigits (b : Byte) : List Byte :=
  [BitVec.ofNat 8 (b.toNat / 100), BitVec.ofNat 8 (b.toNat % 100 / 10), BitVec.ofNat 8 (b.toNat % 10)]

/-- The register of number `k` in the range `V[0]` .. `V[x]` (R73, R144, R145). -/
def rangeReg (k : Nat) : RegIdx := BitVec.ofNat 4 k

/-- The values of `V[0]` .. `V[x]`, `x + 1` bytes (R144). -/
def registersThrough (s : State) (x : RegIdx) : List Byte :=
  (List.range (x.toNat + 1)).map fun k => s.getV (rangeReg k)

/-- `V[k] <- MemRead(I + k, 1)` for each `k` of a list, in its order; the first one out of range raises (R58, R145). -/
def loadRegisters (s : State) : List Nat → Except Fault State
  | [] => .ok s
  | k :: ks =>
    match memRead s (indexed s k) with
    | .ok b => loadRegisters (s.setV (rangeReg k) b) ks
    | .error f => .error f

end Sys2Proof.Machine
end

