-- ==== Sys2Proof/Machine/Alu.lean ====
section
/-! DEFINITION. Register loads and ALU operations (41_alu.md R120 to R133). Operands are read from the state on entry, before
any write (R79). None can fault. -/

namespace Sys2Proof.Machine

/-- `LD Vx, kk`, 6xkk (R120). -/
def execLdImm (x : RegIdx) (kk : Byte) (s : State) : Host.Outcome State Fault Refusal := .next (s.setV x kk)

/-- `ADD Vx, kk`, 7xkk (R121): no carry, VF is not written as a flag. -/
def execAddImm (x : RegIdx) (kk : Byte) (s : State) : Host.Outcome State Fault Refusal :=
  .next (s.setV x (sumByte (s.getV x) kk))

/-- `LD Vx, Vy`, 8xy0 (R122). -/
def execLdReg (x y : RegIdx) (s : State) : Host.Outcome State Fault Refusal := .next (s.setV x (s.getV y))

/-- `OR Vx, Vy`, 8xy1 (R123): VF is not cleared. -/
def execOrReg (x y : RegIdx) (s : State) : Host.Outcome State Fault Refusal := .next (s.setV x (s.getV x ||| s.getV y))

/-- `AND Vx, Vy`, 8xy2 (R124). -/
def execAndReg (x y : RegIdx) (s : State) : Host.Outcome State Fault Refusal := .next (s.setV x (s.getV x &&& s.getV y))

/-- `XOR Vx, Vy`, 8xy3 (R125). -/
def execXorReg (x y : RegIdx) (s : State) : Host.Outcome State Fault Refusal := .next (s.setV x (s.getV x ^^^ s.getV y))

/-- `ADD Vx, Vy`, 8xy4 (R126): VF is the carry, then `V[x]` the sum. -/
def execAddReg (x y : RegIdx) (s : State) : Host.Outcome State Fault Refusal :=
  .next (s.setFlagThenV x (carryFlag (s.getV x) (s.getV y)) (sumByte (s.getV x) (s.getV y)))

/-- `SUB Vx, Vy`, 8xy5 (R127): VF is 1 iff `vx > vy`, strictly. -/
def execSub (x y : RegIdx) (s : State) : Host.Outcome State Fault Refusal :=
  .next (s.setFlagThenV x (notBorrowFlag (s.getV x) (s.getV y)) (differenceByte (s.getV x) (s.getV y)))

/-- `SHR Vx`, 8xy6 (R128): `y` is decoded and not read. -/
def execShr (x _y : RegIdx) (s : State) : Host.Outcome State Fault Refusal :=
  .next (s.setFlagThenV x (lowBitFlag (s.getV x)) (shiftRightByte (s.getV x)))

/-- `SUBN Vx, Vy`, 8xy7 (R129): VF is 1 iff `vy > vx`, strictly. -/
def execSubn (x y : RegIdx) (s : State) : Host.Outcome State Fault Refusal :=
  .next (s.setFlagThenV x (notBorrowFlag (s.getV y) (s.getV x)) (differenceByte (s.getV y) (s.getV x)))

/-- `SHL Vx`, 8xyE (R130): `y` is decoded and not read. -/
def execShl (x _y : RegIdx) (s : State) : Host.Outcome State Fault Refusal :=
  .next (s.setFlagThenV x (highBitFlag (s.getV x)) (shiftLeftByte (s.getV x)))

/-- `RND Vx, kk`, Cxkk (R131): the next free byte (R133), masked. -/
def execRnd (x : RegIdx) (kk : Byte) (s : State) : Host.Outcome State Fault Refusal :=
  match draw8 s with
  | (r, t) => .next (t.setV x (r &&& kk))

end Sys2Proof.Machine
end

