-- ==== Sys2Proof/Machine/Control.lean ====
section
/-! DEFINITION. Control transfer and skips (40_control.md R100 to R108), and the UNKNOWN no-op (R76). On entry to every meaning
`PC` is the advanced one, `a + 2` (R71). -/

namespace Sys2Proof.Machine

/-- An UNKNOWN word (R76): nothing but the advance, which is already made. -/
def execUnknown (s : State) : Host.Outcome State Fault Refusal := .next s

/-- `RET`, 00EE (R101): `PC <- Pop()`. -/
def execRet (s : State) : Host.Outcome State Fault Refusal :=
  match pop s with
  | .ok (target, t) => .next (t.jump target)
  | .error f => .fault f

/-- `JP nnn`, 1nnn (R102): `PC <- zext_16(nnn)`. -/
def execJp (nnn : Addr) (s : State) : Host.Outcome State Fault Refusal := .next (s.jump (zext16 nnn))

/-- `CALL nnn`, 2nnn (R103): `Push(PC); PC <- zext_16(nnn)`. -/
def execCall (nnn : Addr) (s : State) : Host.Outcome State Fault Refusal :=
  match push s s.pc with
  | .ok t => .next (t.jump (zext16 nnn))
  | .error f => .fault f

/-- `SE Vx, kk`, 3xkk (R104). -/
def execSeImm (x : RegIdx) (kk : Byte) (s : State) : Host.Outcome State Fault Refusal :=
  .next (s.skipIf (s.getV x == kk))

/-- `SNE Vx, kk`, 4xkk (R105). -/
def execSneImm (x : RegIdx) (kk : Byte) (s : State) : Host.Outcome State Fault Refusal :=
  .next (s.skipIf (s.getV x != kk))

/-- `SE Vx, Vy`, 5xy0 (R106). -/
def execSeReg (x y : RegIdx) (s : State) : Host.Outcome State Fault Refusal :=
  .next (s.skipIf (s.getV x == s.getV y))

/-- `SNE Vx, Vy`, 9xy0 (R107). -/
def execSneReg (x y : RegIdx) (s : State) : Host.Outcome State Fault Refusal :=
  .next (s.skipIf (s.getV x != s.getV y))

/-- `JP V0, nnn`, Bnnn (R108): register 0 only. -/
def execJpV0 (nnn : Addr) (s : State) : Host.Outcome State Fault Refusal := .next (s.jump (offsetTarget s nnn))

end Sys2Proof.Machine
end

