-- ==== Sys2Proof/Machine/Display.lean ====
section
/-! DEFINITION. The display instructions (43_display.md R160 to R164). -/

namespace Sys2Proof.Machine

/-- The column `(sx + col) mod 64` (R161, R162). -/
def wrapColumn (sx col : Nat) : Fin 64 := ⟨(sx + col) % 64, Nat.mod_lt _ (by decide)⟩

/-- The row `(sy + row) mod 32` (R161, R162). -/
def wrapRow (sy row : Nat) : Fin 32 := ⟨(sy + row) % 32, Nat.mod_lt _ (by decide)⟩

/-- The bit of a sprite byte at column `col`, most significant first: `b[7 - col]` (R161). -/
def spriteBit (b : Byte) (col : Nat) : Bool := b.getLsbD (7 - col)

/-- One sprite bit drawn (R161): a set bit on a pixel that is on sets VF, and toggles the pixel. -/
def drawBit (sx sy row : Nat) (b : Byte) (s : State) (col : Nat) : State :=
  if spriteBit b col then
    let c := wrapColumn sx col
    let r := wrapRow sy row
    let t := if s.pixel c r then s.setV flagReg 1 else s
    t.setPixel c r (!s.pixel c r)
  else s

/-- The eight bits of one sprite row, most significant first (R161). -/
def drawRow (sx sy row : Nat) (b : Byte) (s : State) : State := (List.range 8).foldl (drawBit sx sy row b) s

/-- The rows of a sprite: each reads its byte at `I + row`, which may raise, and is drawn (R161). -/
def drawRows (sx sy : Nat) (s : State) : List Nat → Except Fault State
  | [] => .ok s
  | row :: rows =>
    match memRead s (indexed s row) with
    | .ok b => drawRows sx sy (drawRow sx sy row b s) rows
    | .error f => .error f

/-- `CLS`, 00E0 (R160): every pixel off; VF is not touched. -/
def execCls (s : State) : Host.Outcome State Fault Refusal :=
  .next { s with disp := Vector.replicate 64 (Vector.replicate 32 false) }

/-- `DRW Vx, Vy, n`, Dxyn (R161): the start is read before VF is cleared (R79), then the `n` rows are drawn. -/
def execDrw (x y : RegIdx) (n : BitVec 4) (s : State) : Host.Outcome State Fault Refusal :=
  toOutcome (drawRows (s.getV x).toNat (s.getV y).toNat (s.setV flagReg 0) (List.range n.toNat))

end Sys2Proof.Machine
end

