-- ==== Sys2Proof/Machine/IndexMemory.lean ====
section
/-! DEFINITION. Index register and memory instructions (42_index_memory.md R140 to R145). `I` is never changed by an access
(R23, R146). -/

namespace Sys2Proof.Machine

/-- `LD I, nnn`, Annn (R140). -/
def execLdI (nnn : Addr) (s : State) : Host.Outcome State Fault Refusal := .next { s with i := zext16 nnn }

/-- `ADD I, Vx`, Fx1E (R141): no flag. -/
def execAddI (x : RegIdx) (s : State) : Host.Outcome State Fault Refusal := .next { s with i := indexSum s x }

/-- `LD F, Vx`, Fx29 (R142). -/
def execLdF (x : RegIdx) (s : State) : Host.Outcome State Fault Refusal := .next { s with i := glyphAddress s x }

/-- `LD B, Vx`, Fx33 (R143): three bytes at `I`, hundreds first. -/
def execLdB (x : RegIdx) (s : State) : Host.Outcome State Fault Refusal :=
  toOutcome (storeBytes s (indexed s 0) (bcdDigits (s.getV x)))

/-- `LD [I], Vx`, Fx55 (R144): `V[0]` .. `V[x]` at `I`, in increasing order. -/
def execLdMemVx (x : RegIdx) (s : State) : Host.Outcome State Fault Refusal :=
  toOutcome (storeBytes s (indexed s 0) (registersThrough s x))

/-- `LD Vx, [I]`, Fx65 (R145): `V[0]` .. `V[x]` from `I`, in increasing order. -/
def execLdVxMem (x : RegIdx) (s : State) : Host.Outcome State Fault Refusal :=
  toOutcome (loadRegisters s (List.range (x.toNat + 1)))

end Sys2Proof.Machine
end

