-- ==== Sys2Proof/Machine/KeysTimers.lean ====
section
/-! DEFINITION. Key and timer instructions (44_keys_timers.md R170 to R175). -/

namespace Sys2Proof.Machine

/-- `SKP Vx`, Ex9E (R170). -/
def execSkp (x : RegIdx) (s : State) : Host.Outcome State Fault Refusal :=
  match keyIndex s (s.getV x) with
  | .ok k => .next (s.skipIf (s.keyDown k))
  | .error f => .fault f

/-- `SKNP Vx`, ExA1 (R171). -/
def execSknp (x : RegIdx) (s : State) : Host.Outcome State Fault Refusal :=
  match keyIndex s (s.getV x) with
  | .ok k => .next (s.skipIf (!s.keyDown k))
  | .error f => .fault f

/-- `LD Vx, DT`, Fx07 (R172). -/
def execLdVxDt (x : RegIdx) (s : State) : Host.Outcome State Fault Refusal := .next (s.setV x s.dt)

/-- `LD Vx, K`, Fx0A (R173): while idle, the lowest key down is captured, if any, and the instruction runs again; while
a captured key's release is awaited, it runs again until that key is up, which completes it. -/
def execLdVxK (x : RegIdx) (s : State) : Host.Outcome State Fault Refusal :=
  match s.kw with
  | .idle =>
    match s.lowestKey with
    | some k => .next { s with kw := .awaitingRelease k }.rollBack
    | none => .next s.rollBack
  | .awaitingRelease k =>
    if s.keyDown k then .next s.rollBack
    else .next { s.setV x (BitVec.ofNat 8 k.val) with kw := .idle }

/-- `LD DT, Vx`, Fx15 (R174). -/
def execLdDtVx (x : RegIdx) (s : State) : Host.Outcome State Fault Refusal := .next { s with dt := s.getV x }

/-- `LD ST, Vx`, Fx18 (R175). -/
def execLdStVx (x : RegIdx) (s : State) : Host.Outcome State Fault Refusal := .next { s with st := s.getV x }

end Sys2Proof.Machine
end

