-- ==== Sys2Proof/Machine/Step.lean ====
section
/-! DEFINITION. One step (R71), and the placing of a word where the next step fetches. -/

namespace Sys2Proof.Machine

/-- `Step()` (R71): a faulted machine takes no step (R201); else fetch (R53), the universal advance (R24), decode, which
never fails (R75), and execute. An UNKNOWN word is a no-op (R76). -/
def step (s : State) : Host.Outcome State Fault Refusal :=
  match s.faulted with
  | some f => .fault f
  | none =>
    match fetch s with
    | .error f => .fault f
    | .ok w =>
      match decode w with
      | .ok i => exec i s.advance
      | .error _ => execUnknown s.advance

/-- The state with an instruction's word at `PC` and `PC + 1`, high byte first (R53), as if a Load had brought it (log
entry 14). The bits at and above `nbits` are zero. Where `PC + 1` is no address (R53) nothing can be placed
(log entry 18). -/
def State.withFetchWord (s : State) (nbits w : Nat) : State :=
  let word : Word := BitVec.ofNat 16 (w % 2 ^ nbits)
  if 4096 ≤ s.pc.toNat + 1 then s
  else { s with mem := Memory.writeBytes s.params s.mem s.pc.toNat [highByte word, lowByte word] }

end Sys2Proof.Machine
end

