-- ==== Sys2Proof/Machine/Creation.lean ====
section
/-! DEFINITION. Machine creation for every value the spec leaves open (R36, R230 to R233). `State.reset` is the creation with
the parameters and the values the log names. -/

namespace Sys2Proof.Machine

/-- The draw of R36: one value for each element creation leaves unspecified (D10, D11). It is an argument of a
creation, not a part of the state. -/
structure Draw where
  /-- V0..VF (U8) -/
  v : Vector Byte 16
  /-- I (U8) -/
  i : Word
  /-- the stack entries (U12) -/
  stack : Vector Word 16
  /-- every memory byte, the font's region apart (U10) -/
  mem : Nat → Byte
  /-- the pixels (U9) -/
  disp : Display
  /-- the key flags before the first SetKeys (U11) -/
  key : Vector Bool 16
  /-- DT (U8) -/
  dt : Byte
  /-- ST (U8) -/
  st : Byte
  /-- the index of the first random draw (the model's own, log entry 10) -/
  draws : Nat
  deriving Inhabited

/-- The draw `State.reset` names: all zero, all off, all released (log entries 1 to 7 and 10). -/
def Draw.named : Draw where
  v := Vector.replicate 16 0
  i := 0
  stack := Vector.replicate 16 0
  mem := fun _ => 0
  disp := Vector.replicate 64 (Vector.replicate 32 false)
  key := Vector.replicate 16 false
  dt := 0
  st := 0
  draws := 0

/-- The font install of R231: `Mem[FONT_BASE + j] <- FONT_DATA[j]` for `j` in 0..79. -/
def installFont (p : Params) (m : Memory) : Memory := Memory.writeBytes p m p.fontBase.val p.fontData.toList

/-- Machine creation (R230): memory as drawn with the font installed (R231), `PC` at the entry point (R232), an empty
stack and no key wait (R233), no fault (R35), everything else as drawn (R36). -/
def State.create (p : Params) (d : Draw) : State where
  params := p
  v := d.v
  i := d.i
  pc := 0x200
  sp := 0
  stack := d.stack
  mem := installFont p (Memory.ofBytes p d.mem)
  disp := d.disp
  key := d.key
  dt := d.dt
  st := d.st
  kw := .idle
  faulted := none
  draws := d.draws

end Sys2Proof.Machine
end

