-- ==== Sys2Proof/Machine/Transactions.lean ====
section
/-! DEFINITION. The host's transactions (60_exceptions.md R211) and the schedules the model accepts (R234, R237). -/

namespace Sys2Proof.Machine

/-! ## The transactions on the machine -/

/-- `LOAD_OFFSET` (R7). -/
def loadOffset : Nat := 0x200

/-- `Load(buf)` (R236): a buffer that fits is copied verbatim at 0x200; one that does not changes nothing. -/
def load (buf : List Byte) (s : State) : Bool × State :=
  if wellFormedImage buf then (true, { s with mem := Memory.writeBytes s.params s.mem loadOffset buf }) else (false, s)

/-- `SetKeys(k)` (R178). -/
def setKeys (k : Vector Bool 16) (s : State) : State := { s with key := k }

/-- One timer counted down, not below 0 (R30, R176). -/
def countDown (b : Byte) : Byte := if b = 0 then 0 else b - 1

/-- `Tick()` (R176). -/
def tick (s : State) : State := { s with dt := countDown s.dt, st := countDown s.st }

/-- `ReadDisplay()` (R165): a snapshot; nothing changes. -/
def readDisplay (s : State) : Display := s.disp

/-- `SoundOn` (R37): `ST ≠ 0`. -/
def soundOn (s : State) : Bool := s.st != 0

/-! ## What a faulting step leaves (R201, D17) -/

/-- The values R201 leaves unspecified after a fault: the elements of a draw, and the control state beside them. -/
structure Leftover extends Draw where
  pc : Word
  sp : Fin 17
  kw : KeyWait
  deriving Inhabited

/-- The free values that a faulting step leaves (U7). No body: nothing can be proved of them. Log entry 12. -/
opaque leftByFault : State → Fault → Leftover

/-- The machine after a step that raised `f` (R71, R201): the mark is set; the keys, which only the host writes (R29),
and the parameters stay; every other element is free. -/
def State.afterFault (s : State) (f : Fault) : State where
  params := s.params
  v := (leftByFault s f).v
  i := (leftByFault s f).i
  pc := (leftByFault s f).pc
  sp := (leftByFault s f).sp
  stack := (leftByFault s f).stack
  mem := Memory.ofBytes s.params (leftByFault s f).mem
  disp := (leftByFault s f).disp
  key := s.key
  dt := (leftByFault s f).dt
  st := (leftByFault s f).st
  kw := (leftByFault s f).kw
  faulted := some f
  draws := (leftByFault s f).draws

/-- The machine as a Step transaction leaves it, and the fault it reports if it raised one. A machine that is already
faulted takes no step and is unchanged (R71, R201). -/
def afterStep (s : State) : Host.Outcome (State × Option Fault) Fault Refusal :=
  match step s with
  | .next t => .next (t, none)
  | .fault f => .next (if s.faulted.isSome then s else s.afterFault f, some f)
  | .refused r => .refused r

/-! ## Sessions: a machine under a schedule of host calls -/

/-- The calls of R211. -/
inductive Transaction where
  | load (buf : List Byte)
  | setKeys (k : Vector Bool 16)
  | step
  | tick
  | readDisplay
  | soundOn
  deriving DecidableEq, Repr

/-- What a call answers (R211). -/
inductive Response where
  /-- no result -/
  | done
  /-- Load's success or failure -/
  | loaded (ok : Bool)
  /-- the model's fault of a Step -/
  | stopped (f : Fault)
  /-- ReadDisplay's snapshot -/
  | display (d : Display)
  /-- SoundOn's value -/
  | sound (on : Bool)
  deriving DecidableEq, Repr

/-- How far the boot order of R234 has come. It is the host's history and no state of the machine (log entry 15). -/
inductive Phase where
  /-- created; no Load and no Step yet -/
  | created
  /-- the one Load was called; no Step yet -/
  | loaded
  /-- a Step was called after it -/
  | stepped
  deriving DecidableEq, Repr

/-- A machine and the phase of its schedule. -/
structure Session where
  machine : State
  phase : Phase
  deriving DecidableEq, Repr

/-- The session at machine creation (R230, R234). -/
def Session.create (p : Params) (d : Draw) : Session := ⟨State.create p d, .created⟩

/-- `Step()` of a machine whose Load is done (R211): what the step answers is what the host is told. -/
def stepTransaction (s : State) : Host.Outcome (Session × Response) Fault Refusal :=
  match afterStep s with
  | .next (m, none) => .next (⟨m, .stepped⟩, .done)
  | .next (m, some f) => .next (⟨m, .stepped⟩, .stopped f)
  | .fault f => .fault f
  | .refused r => .refused r

/-- One call of the host (R211). The schedule holds one Load, before the first Step (R212, R234, D19): a second Load, a
Load after the first Step (R237) and a Step before the Load are refused. A Load that fails is the one Load too (log entry
15). Every other order is accepted (R211, R212; log entry 17). -/
def Session.transact (x : Session) : Transaction → Host.Outcome (Session × Response) Fault Refusal
  | .load buf =>
    match x.phase with
    | .created => .next (⟨(load buf x.machine).2, .loaded⟩, .loaded (load buf x.machine).1)
    | .loaded => .refused .secondLoad
    | .stepped => .refused .loadAfterStep
  | .setKeys k => .next (⟨setKeys k x.machine, x.phase⟩, .done)
  | .step =>
    match x.phase with
    | .created => .refused .stepBeforeLoad
    | .loaded | .stepped => stepTransaction x.machine
  | .tick => .next (⟨tick x.machine, x.phase⟩, .done)
  | .readDisplay => .next (x, .display (readDisplay x.machine))
  | .soundOn => .next (x, .sound (soundOn x.machine))

/-- A schedule: the calls in the order the host issues them (R211). -/
def Session.run : List Transaction → Session → Host.Outcome Session Fault Refusal
  | [], x => .next x
  | a :: rest, x =>
    match x.transact a with
    | .next (y, _) => Session.run rest y
    | .fault f => .fault f
    | .refused r => .refused r

end Sys2Proof.Machine
end

