-- ==== Sys2Proof/Safety.lean ====
section
/-! DEFINITION. What counts as a safe run, when an instruction completes, what it may write, and the machine's invariant: the
terms the statements use. Each is read from the spec's rules and not from the meanings. -/

namespace Sys2Proof.Machine

/-! ## Completion and safe runs -/

/-- When an instruction completes: none of the conditions of R200's table holds for it. -/
def completes (i : Instr) (s : State) : Bool :=
  match i with
  | .ret => 0 < s.sp.val
  | .call _ => s.sp.val < 16
  | .drw _ _ n => n.toNat = 0 || s.i.toNat + n.toNat ≤ 4096
  | .skp x | .sknp x => (s.getV x).toNat < 16
  | .ldB _ => s.i.toNat + 2 < 4096
  | .ldMemVx x | .ldVxMem x => s.i.toNat + x.toNat < 4096
  | .cls | .jp _ | .seImm _ _ | .sneImm _ _ | .seReg _ _ | .ldImm _ _ | .addImm _ _ | .ldReg _ _ | .orReg _ _
  | .andReg _ _ | .xorReg _ _ | .addReg _ _ | .sub _ _ | .shr _ _ | .subn _ _ | .shl _ _ | .sneReg _ _ | .ldI _
  | .jpV0 _ | .rnd _ _ | .ldVxDt _ | .ldVxK _ | .ldDtVx _ | .ldStVx _ | .addI _ | .ldF _ => true

/-- The next `k` steps raise no fault: a run that supports claims (R201). -/
def runsSafely : Nat → State → Bool
  | 0, _ => true
  | k + 1, s =>
    match step s with
    | .next t => runsSafely k t
    | .fault _ => false
    | .refused _ => false

/-- The end of a run (R246): no fault, no key wait, and the word at `PC` is `JP PC`, with `PC ≤ 0xFFE`. -/
def endOfRun (s : State) : Bool :=
  s.faulted = none && s.kw = .idle && decide (s.pc.toNat ≤ 0xFFE) &&
    wordOfBytes (s.byteAt s.pc.toNat) (s.byteAt (s.pc.toNat + 1)) == 0x1000 + s.pc

/-! ## What an instruction may write -/

/-- The instructions that write VF as a flag (R21). -/
def writesFlag : Instr → Bool
  | .addReg _ _ | .sub _ _ | .shr _ _ | .subn _ _ | .shl _ _ | .drw _ _ _ => true
  | .cls | .ret | .jp _ | .call _ | .seImm _ _ | .sneImm _ _ | .seReg _ _ | .ldImm _ _ | .addImm _ _ | .ldReg _ _
  | .orReg _ _ | .andReg _ _ | .xorReg _ _ | .sneReg _ _ | .ldI _ | .jpV0 _ | .rnd _ _ | .skp _ | .sknp _ | .ldVxDt _
  | .ldVxK _ | .ldDtVx _ | .ldStVx _ | .addI _ | .ldF _ | .ldB _ | .ldMemVx _ | .ldVxMem _ => false

/-- The general registers an instruction's destination field names (R120 to R131, R145, R172, R173): the register `x`,
or for LD Vx,[I] the range `V[0]` .. `V[x]`. -/
def namesDestination (i : Instr) (r : RegIdx) : Bool :=
  match i with
  | .ldImm x _ | .addImm x _ | .ldReg x _ | .orReg x _ | .andReg x _ | .xorReg x _ | .addReg x _ | .sub x _ | .shr x _
  | .subn x _ | .shl x _ | .rnd x _ | .ldVxDt x | .ldVxK x => r = x
  | .ldVxMem x => r.toNat ≤ x.toNat
  | .cls | .ret | .jp _ | .call _ | .seImm _ _ | .sneImm _ _ | .seReg _ _ | .sneReg _ _ | .ldI _ | .jpV0 _ | .drw _ _ _
  | .skp _ | .sknp _ | .ldDtVx _ | .ldStVx _ | .addI _ | .ldF _ | .ldB _ | .ldMemVx _ => false

/-- The number of bytes an instruction stores, from the address in `I` upward: 3 for LD B (R143), `x + 1` for LD [I]
(R144), none for every other (R54). -/
def bytesStored : Instr → Nat
  | .ldB _ => 3
  | .ldMemVx x => x.toNat + 1
  | .cls | .ret | .jp _ | .call _ | .seImm _ _ | .sneImm _ _ | .seReg _ _ | .ldImm _ _ | .addImm _ _ | .ldReg _ _
  | .orReg _ _ | .andReg _ _ | .xorReg _ _ | .addReg _ _ | .sub _ _ | .shr _ _ | .subn _ _ | .shl _ _ | .sneReg _ _
  | .ldI _ | .jpV0 _ | .rnd _ _ | .drw _ _ _ | .skp _ | .sknp _ | .ldVxDt _ | .ldVxK _ | .ldDtVx _ | .ldStVx _ | .addI _
  | .ldF _ | .ldVxMem _ => 0

/-- The instructions that may leave `PC` elsewhere than at `a + 2` (R100 to R108, R170, R171, R173). -/
def mayMovePc : Instr → Bool
  | .ret | .jp _ | .call _ | .seImm _ _ | .sneImm _ _ | .seReg _ _ | .sneReg _ _ | .jpV0 _ | .skp _ | .sknp _
  | .ldVxK _ => true
  | .cls | .ldImm _ _ | .addImm _ _ | .ldReg _ _ | .orReg _ _ | .andReg _ _ | .xorReg _ _ | .addReg _ _ | .sub _ _
  | .shr _ _ | .subn _ _ | .shl _ _ | .ldI _ | .rnd _ _ | .drw _ _ _ | .ldVxDt _ | .ldDtVx _ | .ldStVx _ | .addI _
  | .ldF _ | .ldB _ | .ldMemVx _ | .ldVxMem _ => false

/-! ## What a sprite covers -/

/-- A set bit of the sprite of `n` rows at `I`, started at column `sx` and row `sy`, falls on the pixel `(c, r)` (R161,
R162): row `row` is the byte at `I + row`, its column `col` is bit `7 - col`, and both coordinates wrap. -/
def spriteCovers (s : State) (sx sy n : Nat) (c : Fin 64) (r : Fin 32) : Prop :=
  ∃ row col, row < n ∧ col < 8 ∧ (s.byteAt (s.i.toNat + row)).getLsbD (7 - col) = true ∧
    c.val = (sx + col) % 64 ∧ r.val = (sy + row) % 32

/-! ## The invariant -/

/-- A pending key wait belongs to the instruction at `PC`: while a key's release is awaited, `PC` and `PC + 1` are
addresses and the word there is an LD Vx,K (R243). -/
def keyWaitAtPc (s : State) : Prop :=
  s.kw ≠ .idle → s.pc.toNat + 1 < 4096 ∧
    ∃ x, decode (wordOfBytes (s.byteAt s.pc.toNat) (s.byteAt (s.pc.toNat + 1))) = .ok (.ldVxK x)

/-- The invariant of a machine: memory in its canonical form, and the key wait of an unfaulted machine at `PC`. -/
structure State.Inv (s : State) : Prop where
  mem_wf : Memory.wf s.params s.mem = true
  key_wait : s.faulted = none → keyWaitAtPc s

end Sys2Proof.Machine
end

