-- ==== Sys2Proof/Certificates/Slice0/Obligations.lean ====
section
/-! DEFINITION. The statements for the provers, from the numbered rules of spec/. "On entry" is the state a meaning runs on, with
`PC` already advanced to `a + 2` (R71); `t = { s with v := t.v }` says that nothing but the general registers changed. -/

open Sys2Proof Sys2Proof.Machine

/-! ## Encoding (30_encoding.md) -/

/-- Words written out from R74, R75 and R80 decode to the instructions they stand for (95_test_vectors.md T-DEC, S-S2, S-S3). -/
def Obligations.SpecWordsDecode : Prop :=
  decode 0x00E0 = .ok .cls ∧ decode 0x00EE = .ok .ret ∧ decode 0x1234 = .ok (.jp 0x234) ∧
  decode 0x6A0F = .ok (.ldImm 0xA 0x0F) ∧ decode 0x8AB4 = .ok (.addReg 0xA 0xB) ∧
  decode 0x8ABE = .ok (.shl 0xA 0xB) ∧ decode 0xBABC = .ok (.jpV0 0xABC) ∧ decode 0xD12F = .ok (.drw 1 2 0xF) ∧
  decode 0xE59E = .ok (.skp 5) ∧ decode 0xF30A = .ok (.ldVxK 3) ∧ decode 0xF065 = .ok (.ldVxMem 0) ∧
  decode 0x0123 = .error (.unknown 0x0123)

/-- Encoding then decoding gives every instruction back, with every operand at every value, as a word and as bytes
(R70, R74, R75). -/
def Obligations.DecodeOfEncodeIsIdentity : Prop :=
  ∀ i : Instr, decode (encode i) = .ok i ∧ ∀ rest, decodeBytes (encodeBytes i ++ rest) = .ok (i, rest)

/-- Each word that decodes is the encoding of the instruction it decodes to: no bit of a word is dropped (R72, R74, R75). -/
def Obligations.EncodeOfDecodeIsIdentity : Prop :=
  ∀ (w : Word) (i : Instr), decode w = .ok i → encode i = w

/-- R78: no word matches two rows of R75's table; rows with the same op differ in a bit both masks select; so the tag of a
word is that of any row it matches, whatever the order of trying. -/
def Obligations.NoWordMatchesTwoRows : Prop :=
  (∀ (w : Word), ∀ r ∈ opcodeTable, ∀ q ∈ opcodeTable, r.matches w = true → q.matches w = true → r = q) ∧
  (∀ r ∈ opcodeTable, ∀ q ∈ opcodeTable, r ≠ q →
    r.pattern.extractLsb' 12 4 ≠ q.pattern.extractLsb' 12 4 ∧ r.mask.extractLsb' 12 4 = 0xF ∧ q.mask.extractLsb' 12 4 = 0xF ∨
    (r.pattern ^^^ q.pattern) &&& (r.mask &&& q.mask) ≠ 0) ∧
  (∀ (w : Word), ∀ r ∈ opcodeTable, r.matches w = true → tagOf w = r.tag)

/-- The rejected words are the groups of R77's table (their counts apart), each rejected by its own name. -/
def Obligations.UnknownWordGroups : Prop :=
  ∀ w : Word, decode w = .error (.unknown w) ↔
    (w.toNat / 4096 = 0 ∧ w ≠ 0x00E0 ∧ w ≠ 0x00EE) ∨
    (w.toNat / 4096 = 5 ∧ w.toNat % 16 ≠ 0) ∨
    (w.toNat / 4096 = 8 ∧ w.toNat % 16 ∈ [8, 9, 10, 11, 12, 13, 15]) ∨
    (w.toNat / 4096 = 9 ∧ w.toNat % 16 ≠ 0) ∨
    (w.toNat / 4096 = 14 ∧ w.toNat % 256 ∉ [0x9E, 0xA1]) ∨
    (w.toNat / 4096 = 15 ∧ w.toNat % 256 ∉ [0x07, 0x0A, 0x15, 0x18, 0x1E, 0x29, 0x33, 0x55, 0x65])

/-! ## The step and the fetch (R53, R71, R76, R201) -/

/-- A step runs the decoded instruction (R71): when the bytes at `PC` decode to `i`, the step is `exec i` on the state
whose `PC` is advanced by 2. -/
def Obligations.StepRunsTheDecodedInstruction : Prop :=
  ∀ (s : State) (i : Instr), s.faulted = none → s.pc.toNat + 1 < 4096 →
    decodeBytes [s.byteAt s.pc.toNat, s.byteAt (s.pc.toNat + 1)] = .ok (i, []) →
    step s = exec i { s with pc := s.pc + 2 }

/-- R76: an UNKNOWN word is a no-op; the step's only effect is the advance, and it does not fault. -/
def Obligations.UnknownWordIsANoOp : Prop :=
  ∀ (s : State) (r : Reject), s.faulted = none → s.pc.toNat + 1 < 4096 →
    decode (wordOfBytes (s.byteAt s.pc.toNat) (s.byteAt (s.pc.toNat + 1))) = .error r →
    step s = .next { s with pc := s.pc + 2 }

/-- R53: the fetched word has the byte at `PC` as its bits 15..8 and the byte at `PC + 1` as its bits 7..0; with
`PC + 1 ≥ 4096` the step faults FETCH_RANGE, recording `PC` twice. -/
def Obligations.FetchIsBigEndianAndRangeChecked : Prop :=
  ∀ s : State,
    (s.pc.toNat + 1 < 4096 → ∃ w, fetch s = .ok w ∧
      w.toNat = (s.byteAt s.pc.toNat).toNat * 256 + (s.byteAt (s.pc.toNat + 1)).toNat) ∧
    (4096 ≤ s.pc.toNat + 1 → s.faulted = none → step s = .fault (.fetchRange s.pc.toNat s.pc))

/-- A faulted machine takes no step (R71, R201): the step only reports the recorded fault, and under a Step transaction
nothing of the machine changes (T-STP-6). That the recorded fault is what is answered is the model's choice, log entry
11. -/
def Obligations.FaultedMachineTakesNoStep : Prop :=
  ∀ (s : State) (f : Fault), s.faulted = some f →
    step s = .fault f ∧ ∀ ph, ph ≠ .created → (Session.mk s ph).transact .step = .next (⟨s, .stepped⟩, .stopped f)

/-! ## Control transfer and skips (40_control.md) -/

/-- R101: RET pops the return address into `PC`; with `SP = 0` it faults STACK_UNDERFLOW. -/
def Obligations.RetReturnsToThePoppedAddress : Prop :=
  ∀ s : State,
    (∀ h : 0 < s.sp.val, ∃ t, exec .ret s = .next t ∧ t = { s with pc := t.pc, sp := t.sp } ∧
      t.pc = s.stack[s.sp.val - 1]'(by omega) ∧ t.sp.val + 1 = s.sp.val) ∧
    (s.sp.val = 0 → exec .ret s = .fault (.stackUnderflow s.pc.toNat (s.pc - 2)))

/-- R102: JP sets `PC` to `nnn`, and changes nothing else. -/
def Obligations.JpSetsThePc : Prop :=
  ∀ (nnn : Addr) (s : State), ∃ t, exec (.jp nnn) s = .next t ∧ t = { s with pc := t.pc } ∧ t.pc.toNat = nnn.toNat

/-- R103: CALL writes the advanced `PC` at `Stack[SP]`, counts it, and jumps; with `SP = 16` it faults STACK_OVERFLOW. -/
def Obligations.CallPushesTheReturnAddress : Prop :=
  ∀ (nnn : Addr) (s : State),
    (∀ h : s.sp.val < 16, ∃ t, exec (.call nnn) s = .next t ∧ t = { s with pc := t.pc, sp := t.sp, stack := t.stack } ∧
      t.pc.toNat = nnn.toNat ∧ t.sp.val = s.sp.val + 1 ∧ t.stack[s.sp.val]'h = s.pc ∧
      ∀ (j : Nat) (hj : j < 16), j ≠ s.sp.val → t.stack[j]'hj = s.stack[j]'hj) ∧
    (s.sp.val = 16 → exec (.call nnn) s = .fault (.stackOverflow s.pc.toNat (s.pc - 2)))

/-- A RET that meets the stack a CALL left returns to the instruction after that CALL (R27, R101, R103, R109), whatever
the called code did to everything but the stack. -/
def Obligations.RetReturnsAfterItsCall : Prop :=
  ∀ (nnn : Addr) (s : State), s.sp.val < 16 →
    ∃ t, exec (.call nnn) s = .next t ∧ ∀ u : State, u.stack = t.stack → u.sp = t.sp →
      ∃ r, exec .ret u = .next r ∧ r.pc = s.pc ∧ r.sp = s.sp

/-- R104 to R107: the four register skips add 2 to the advanced `PC` exactly when their condition holds, and change
nothing else. -/
def Obligations.RegisterSkipsMoveOnlyThePc : Prop :=
  ∀ (x y : RegIdx) (kk : Byte) (s : State),
    (∃ t, exec (.seImm x kk) s = .next t ∧ t = { s with pc := t.pc } ∧
      (s.getV x = kk → t.pc = s.pc + 2) ∧ (s.getV x ≠ kk → t.pc = s.pc)) ∧
    (∃ t, exec (.sneImm x kk) s = .next t ∧ t = { s with pc := t.pc } ∧
      (s.getV x ≠ kk → t.pc = s.pc + 2) ∧ (s.getV x = kk → t.pc = s.pc)) ∧
    (∃ t, exec (.seReg x y) s = .next t ∧ t = { s with pc := t.pc } ∧
      (s.getV x = s.getV y → t.pc = s.pc + 2) ∧ (s.getV x ≠ s.getV y → t.pc = s.pc)) ∧
    (∃ t, exec (.sneReg x y) s = .next t ∧ t = { s with pc := t.pc } ∧
      (s.getV x ≠ s.getV y → t.pc = s.pc + 2) ∧ (s.getV x = s.getV y → t.pc = s.pc))

/-- R108: JP V0 jumps to `nnn + V[0]`, formed in 16 bits; a target of 0xFFF or above makes the next fetch fault. -/
def Obligations.JpV0AddsRegisterZero : Prop :=
  ∀ (nnn : Addr) (s : State), ∃ t, exec (.jpV0 nnn) s = .next t ∧ t = { s with pc := t.pc } ∧
    t.pc.toNat = (nnn.toNat + (s.getV 0).toNat) % 65536 ∧
    (s.faulted = none → 0xFFF ≤ t.pc.toNat → step t = .fault (.fetchRange t.pc.toNat t.pc))

/-! ## Register loads and the ALU (41_alu.md) -/

/-- R120 and R122: `LD Vx, kk` and `LD Vx, Vy` write `V[x]` and nothing else. -/
def Obligations.RegisterLoadsWriteOneRegister : Prop :=
  ∀ (x y : RegIdx) (kk : Byte) (s : State),
    (∃ t, exec (.ldImm x kk) s = .next t ∧ t = { s with v := t.v } ∧
      t.getV x = kk ∧ ∀ q, q ≠ x → t.getV q = s.getV q) ∧
    (∃ t, exec (.ldReg x y) s = .next t ∧ t = { s with v := t.v } ∧
      t.getV x = s.getV y ∧ ∀ q, q ≠ x → t.getV q = s.getV q)

/-- R121: `ADD Vx, kk` adds modulo 256 and writes no flag: VF is unchanged unless `x = 15`. -/
def Obligations.AddImmediateWrapsWithoutFlag : Prop :=
  ∀ (x : RegIdx) (kk : Byte) (s : State), ∃ t, exec (.addImm x kk) s = .next t ∧ t = { s with v := t.v } ∧
    (t.getV x).toNat = ((s.getV x).toNat + kk.toNat) % 256 ∧ ∀ q, q ≠ x → t.getV q = s.getV q

/-- R123 to R125: OR, AND and XOR combine `V[x]` and `V[y]` bit by bit into `V[x]`; VF is not touched unless `x = 15`. -/
def Obligations.BitwiseOperationsWriteOneRegister : Prop :=
  ∀ (x y : RegIdx) (s : State),
    (∃ t, exec (.orReg x y) s = .next t ∧ t = { s with v := t.v } ∧ (∀ q, q ≠ x → t.getV q = s.getV q) ∧
      ∀ k, (t.getV x).getLsbD k = ((s.getV x).getLsbD k || (s.getV y).getLsbD k)) ∧
    (∃ t, exec (.andReg x y) s = .next t ∧ t = { s with v := t.v } ∧ (∀ q, q ≠ x → t.getV q = s.getV q) ∧
      ∀ k, (t.getV x).getLsbD k = ((s.getV x).getLsbD k && (s.getV y).getLsbD k)) ∧
    (∃ t, exec (.xorReg x y) s = .next t ∧ t = { s with v := t.v } ∧ (∀ q, q ≠ x → t.getV q = s.getV q) ∧
      ∀ k, (t.getV x).getLsbD k = ((s.getV x).getLsbD k ^^ (s.getV y).getLsbD k))

/-- R126: `ADD Vx, Vy` writes VF = 1 iff the sum exceeds 255, then `V[x]` the sum modulo 256, both from the old operands;
with `x = 15` the sum stays. -/
def Obligations.AddRegistersSetsCarryThenSum : Prop :=
  ∀ (x y : RegIdx) (s : State), ∃ t, exec (.addReg x y) s = .next t ∧ t = { s with v := t.v } ∧
    (t.getV x).toNat = ((s.getV x).toNat + (s.getV y).toNat) % 256 ∧
    (x ≠ 15 → (t.getV 15).toNat = if (s.getV x).toNat + (s.getV y).toNat > 255 then 1 else 0) ∧
    ∀ q, q ≠ x → q ≠ 15 → t.getV q = s.getV q

/-- R127: SUB writes VF = 1 iff `V[x] > V[y]`, STRICTLY, then `V[x]` the difference modulo 256, both from the old operands. -/
def Obligations.SubComparesStrictly : Prop :=
  ∀ (x y : RegIdx) (s : State), ∃ t, exec (.sub x y) s = .next t ∧ t = { s with v := t.v } ∧
    (t.getV x).toNat = ((s.getV x).toNat + 256 - (s.getV y).toNat) % 256 ∧
    (x ≠ 15 → (t.getV 15).toNat = if (s.getV x).toNat > (s.getV y).toNat then 1 else 0) ∧
    ∀ q, q ≠ x → q ≠ 15 → t.getV q = s.getV q

/-- R129: SUBN writes VF = 1 iff `V[y] > V[x]`, STRICTLY, then `V[x]` the reversed difference modulo 256. -/
def Obligations.SubnComparesStrictly : Prop :=
  ∀ (x y : RegIdx) (s : State), ∃ t, exec (.subn x y) s = .next t ∧ t = { s with v := t.v } ∧
    (t.getV x).toNat = ((s.getV y).toNat + 256 - (s.getV x).toNat) % 256 ∧
    (x ≠ 15 → (t.getV 15).toNat = if (s.getV y).toNat > (s.getV x).toNat then 1 else 0) ∧
    ∀ q, q ≠ x → q ≠ 15 → t.getV q = s.getV q

/-- R128 and R130: SHR and SHL move `V[x]` by one place and put the bit shifted out in VF; `y` is not read (the result
says nothing of it). -/
def Obligations.ShiftsPutTheLostBitInVF : Prop :=
  ∀ (x y : RegIdx) (s : State),
    (∃ t, exec (.shr x y) s = .next t ∧ t = { s with v := t.v } ∧ (t.getV x).toNat = (s.getV x).toNat / 2 ∧
      (x ≠ 15 → (t.getV 15).toNat = (s.getV x).toNat % 2) ∧ ∀ q, q ≠ x → q ≠ 15 → t.getV q = s.getV q) ∧
    (∃ t, exec (.shl x y) s = .next t ∧ t = { s with v := t.v } ∧ (t.getV x).toNat = (s.getV x).toNat * 2 % 256 ∧
      (x ≠ 15 → (t.getV 15).toNat = (s.getV x).toNat / 128 % 2) ∧ ∀ q, q ≠ x → q ≠ 15 → t.getV q = s.getV q)

/-- R131, R133: RND takes the next free byte, whatever it is, and writes its AND with `kk`; each execution takes a fresh
one (the counter that numbers the draws is the model's own, log entry 10). -/
def Obligations.RndMasksAFreshByte : Prop :=
  ∀ (x : RegIdx) (kk : Byte) (s : State), ∃ t, exec (.rnd x kk) s = .next t ∧
    t = { s with v := t.v, draws := s.draws + 1 } ∧ (∀ q, q ≠ x → t.getV q = s.getV q) ∧
    ∀ k, (t.getV x).getLsbD k = ((Config.drawByte s.draws).getLsbD k && kk.getLsbD k)

/-! ## Index register and memory (42_index_memory.md) -/

/-- R140, R141, R142: LD I, ADD I and LD F write `I` and nothing else, no flag in particular; LD F takes the glyph address
of the unmasked `V[x]`, for every FONT_BASE. -/
def Obligations.IndexInstructionsWriteOnlyI : Prop :=
  ∀ (x : RegIdx) (nnn : Addr) (s : State),
    (∃ t, exec (.ldI nnn) s = .next t ∧ t = { s with i := t.i } ∧ t.i.toNat = nnn.toNat) ∧
    (∃ t, exec (.addI x) s = .next t ∧ t = { s with i := t.i } ∧
      t.i.toNat = (s.i.toNat + (s.getV x).toNat) % 65536) ∧
    (∃ t, exec (.ldF x) s = .next t ∧ t = { s with i := t.i } ∧
      t.i.toNat = s.params.fontBase.val + 5 * (s.getV x).toNat)

/-- R143: LD B stores the three decimal digits of `V[x]` at `I`, `I + 1`, `I + 2` and changes nothing else; when one of
these is no address it faults WRITE_RANGE at the first that is not. -/
def Obligations.BcdStoresThreeDigits : Prop :=
  ∀ (x : RegIdx) (s : State),
    (s.i.toNat + 2 < 4096 → ∃ t, exec (.ldB x) s = .next t ∧ t = { s with mem := t.mem } ∧
      (t.byteAt (indexed s 0)).toNat = (s.getV x).toNat / 100 ∧
      (t.byteAt (indexed s 1)).toNat = (s.getV x).toNat % 100 / 10 ∧
      (t.byteAt (indexed s 2)).toNat = (s.getV x).toNat % 10 ∧
      ∀ a, (∀ k, k < 3 → a ≠ indexed s k) → t.byteAt a = s.byteAt a) ∧
    (4096 ≤ s.i.toNat + 2 → exec (.ldB x) s = .fault (.writeRange (max s.i.toNat 4096) (s.pc - 2)))

/-- R144: LD [I],Vx stores `V[0]` .. `V[x]` at `I` .. `I + x` and changes nothing else, `I` included; when `I + x` is no
address it faults WRITE_RANGE at the first that is not. -/
def Obligations.RegisterDumpStoresTheRange : Prop :=
  ∀ (x : RegIdx) (s : State),
    (s.i.toNat + x.toNat < 4096 → ∃ t, exec (.ldMemVx x) s = .next t ∧ t = { s with mem := t.mem } ∧
      (∀ q : RegIdx, q.toNat ≤ x.toNat → t.byteAt (indexed s q.toNat) = s.getV q) ∧
      ∀ a, (∀ k, k ≤ x.toNat → a ≠ indexed s k) → t.byteAt a = s.byteAt a) ∧
    (4096 ≤ s.i.toNat + x.toNat → exec (.ldMemVx x) s = .fault (.writeRange (max s.i.toNat 4096) (s.pc - 2)))

/-- R145: LD Vx,[I] loads `V[0]` .. `V[x]` from `I` .. `I + x` and changes nothing else, `I` included; when `I + x` is no
address it faults READ_RANGE at the first that is not. -/
def Obligations.RegisterLoadReadsTheRange : Prop :=
  ∀ (x : RegIdx) (s : State),
    (s.i.toNat + x.toNat < 4096 → ∃ t, exec (.ldVxMem x) s = .next t ∧ t = { s with v := t.v } ∧
      (∀ q : RegIdx, q.toNat ≤ x.toNat → t.getV q = s.byteAt (indexed s q.toNat)) ∧
      ∀ q : RegIdx, x.toNat < q.toNat → t.getV q = s.getV q) ∧
    (4096 ≤ s.i.toNat + x.toNat → exec (.ldVxMem x) s = .fault (.readRange (max s.i.toNat 4096) (s.pc - 2)))

/-- A dump and then a load through the same memory restore `V[0]` .. `V[x]`, whatever happened to the registers between
(R144, R145; S-P6). -/
def Obligations.DumpThenLoadRestoresTheRegisters : Prop :=
  ∀ (x : RegIdx) (s : State) (v' : Vector Byte 16), s.i.toNat + x.toNat < 4096 →
    ∃ t u, exec (.ldMemVx x) s = .next t ∧ exec (.ldVxMem x) { t with v := v' } = .next u ∧ u.i = s.i ∧
      ∀ q : RegIdx, q.toNat ≤ x.toNat → u.getV q = s.getV q

/-- A store is seen by the next fetch (R62, R241): when LD [I],Vx or LD B stores over the two bytes at the advanced `PC`,
the next fetch reads the bytes just stored. -/
def Obligations.NextFetchSeesStoredBytes : Prop :=
  ∀ (x : RegIdx) (s : State), s.pc = s.i →
    (1 ≤ x.toNat → s.i.toNat + x.toNat < 4096 →
      ∃ t, exec (.ldMemVx x) s = .next t ∧ fetch t = .ok (wordOfBytes (s.getV 0) (s.getV 1))) ∧
    (s.i.toNat + 2 < 4096 → ∃ t, exec (.ldB x) s = .next t ∧ ∃ w, fetch t = .ok w ∧
      w.toNat = (s.getV x).toNat / 100 * 256 + (s.getV x).toNat % 100 / 10)

/-! ## Display (43_display.md) -/

/-- R160: CLS turns every pixel off and changes nothing else, VF included. -/
def Obligations.ClsTurnsEveryPixelOff : Prop :=
  ∀ s : State, ∃ t, exec .cls s = .next t ∧ t = { s with disp := t.disp } ∧ ∀ c r, t.pixel c r = false

/-- R161 (with R162 and R163): DRW toggles exactly the pixels the sprite covers, coordinates wrapped, and writes VF = 1
iff one of them was on, else 0; the start is read before VF is written; nothing else changes. When a row's byte is
at no address it faults READ_RANGE at the first that is not. -/
def Obligations.DrawTogglesTheCoveredPixels : Prop :=
  ∀ (x y : RegIdx) (n : BitVec 4) (s : State),
    ((n.toNat = 0 ∨ s.i.toNat + n.toNat ≤ 4096) →
      ∃ t, exec (.drw x y n) s = .next t ∧ t = { s with v := t.v, disp := t.disp } ∧
        (∀ c r, (spriteCovers s (s.getV x).toNat (s.getV y).toNat n.toNat c r → t.pixel c r = !s.pixel c r) ∧
          (¬ spriteCovers s (s.getV x).toNat (s.getV y).toNat n.toNat c r → t.pixel c r = s.pixel c r)) ∧
        ((∃ c r, spriteCovers s (s.getV x).toNat (s.getV y).toNat n.toNat c r ∧ s.pixel c r = true) → t.getV 15 = 1) ∧
        ((∀ c r, spriteCovers s (s.getV x).toNat (s.getV y).toNat n.toNat c r → s.pixel c r = false) → t.getV 15 = 0) ∧
        ∀ q, q ≠ 15 → t.getV q = s.getV q) ∧
    (n.toNat ≠ 0 → 4096 < s.i.toNat + n.toNat →
      exec (.drw x y n) s = .fault (.readRange (max s.i.toNat 4096) (s.pc - 2)))

/-- Drawing the same sprite twice restores the display (R164, S-P3), and the second draw reports 1 exactly when the first
turned some pixel on. (S-P3 says "any display"; by R161 the second flag is 0 when every covered pixel was on before:
log entry 19.) The registers that hold the start are not VF, which the first draw overwrites. -/
def Obligations.DrawingTwiceRestoresTheDisplay : Prop :=
  ∀ (x y : RegIdx) (n : BitVec 4) (s : State), x ≠ 15 → y ≠ 15 → (n.toNat = 0 ∨ s.i.toNat + n.toNat ≤ 4096) →
    ∃ t u, exec (.drw x y n) s = .next t ∧ exec (.drw x y n) t = .next u ∧ (∀ c r, u.pixel c r = s.pixel c r) ∧
      (u.getV 15 = 1 ↔ ∃ c r, s.pixel c r = false ∧ t.pixel c r = true) ∧ (u.getV 15 = 1 ∨ u.getV 15 = 0)

/-! ## Keys and timers (44_keys_timers.md) -/

/-- R170, R171, R177: SKP and SKNP skip on the state of key `V[x]` and change nothing else; with `V[x] ≥ 16` both fault
KEY_RANGE. -/
def Obligations.KeySkipsReadTheKeyOfVx : Prop :=
  ∀ (x : RegIdx) (s : State),
    (∀ h : (s.getV x).toNat < 16,
      (∃ t, exec (.skp x) s = .next t ∧ t = { s with pc := t.pc } ∧
        (s.keyDown ⟨(s.getV x).toNat, h⟩ = true → t.pc = s.pc + 2) ∧
        (s.keyDown ⟨(s.getV x).toNat, h⟩ = false → t.pc = s.pc)) ∧
      (∃ t, exec (.sknp x) s = .next t ∧ t = { s with pc := t.pc } ∧
        (s.keyDown ⟨(s.getV x).toNat, h⟩ = false → t.pc = s.pc + 2) ∧
        (s.keyDown ⟨(s.getV x).toNat, h⟩ = true → t.pc = s.pc))) ∧
    (16 ≤ (s.getV x).toNat →
      exec (.skp x) s = .fault (.keyRange (s.getV x).toNat (s.pc - 2)) ∧
      exec (.sknp x) s = .fault (.keyRange (s.getV x).toNat (s.pc - 2)))

/-- R172, R174, R175: LD Vx,DT copies the delay timer into `V[x]`; LD DT,Vx and LD ST,Vx copy `V[x]` into their timer;
nothing else changes. -/
def Obligations.TimerInstructionsCopy : Prop :=
  ∀ (x : RegIdx) (s : State),
    (∃ t, exec (.ldVxDt x) s = .next t ∧ t = { s with v := t.v } ∧ t.getV x = s.dt ∧ ∀ q, q ≠ x → t.getV q = s.getV q) ∧
    (∃ t, exec (.ldDtVx x) s = .next t ∧ t = { s with dt := t.dt } ∧ t.dt = s.getV x) ∧
    (∃ t, exec (.ldStVx x) s = .next t ∧ t = { s with st := t.st } ∧ t.st = s.getV x ∧
      (soundOn t = true ↔ s.getV x ≠ 0))

/-- R173: LD Vx,K in its four cases. Idle with no key down: only `PC` is rolled back. Idle with keys down: the lowest is
captured and `PC` rolled back. Awaiting a key still down: only `PC` is rolled back. Awaiting a key that is up: `V[x]` is
the captured key and the wait ends, `PC` staying at `a + 2`. -/
def Obligations.WaitForKeyStateMachine : Prop :=
  ∀ (x : RegIdx) (s : State),
    (s.kw = .idle → (∀ j, s.keyDown j = false) → exec (.ldVxK x) s = .next { s with pc := s.pc - 2 }) ∧
    (∀ k, s.kw = .idle → s.keyDown k = true → (∀ j, j < k → s.keyDown j = false) →
      exec (.ldVxK x) s = .next { s with pc := s.pc - 2, kw := .awaitingRelease k }) ∧
    (∀ k, s.kw = .awaitingRelease k → s.keyDown k = true → exec (.ldVxK x) s = .next { s with pc := s.pc - 2 }) ∧
    (∀ k, s.kw = .awaitingRelease k → s.keyDown k = false → ∃ t, exec (.ldVxK x) s = .next t ∧
      t = { s with v := t.v, kw := .idle } ∧ (t.getV x).toNat = k.val ∧ ∀ q, q ≠ x → t.getV q = s.getV q)

/-- A step at LD Vx,K with nothing captured and no key down changes nothing at all (R173, S-P5). -/
def Obligations.WaitWithoutAKeyChangesNothing : Prop :=
  ∀ (x : RegIdx) (s : State), s.faulted = none → s.pc.toNat + 1 < 4096 →
    decode (wordOfBytes (s.byteAt s.pc.toNat) (s.byteAt (s.pc.toNat + 1))) = .ok (.ldVxK x) →
    s.kw = .idle → (∀ j, s.keyDown j = false) → step s = .next s

/-- A press and a release end the wait (R173, R178): from a step at LD Vx,K with `k` the lowest key down, a key update in
which `k` is up and one more step leave `k` in `V[x]` and the `PC` past the instruction, whatever the other keys do. -/
def Obligations.PressThenReleaseEndsTheWait : Prop :=
  ∀ (x : RegIdx) (s : State) (k : Fin 16) (keys : Vector Bool 16), s.faulted = none → s.pc.toNat + 1 < 4096 →
    decode (wordOfBytes (s.byteAt s.pc.toNat) (s.byteAt (s.pc.toNat + 1))) = .ok (.ldVxK x) →
    s.kw = .idle → s.keyDown k = true → (∀ j, j < k → s.keyDown j = false) → keys[k.val] = false →
    ∃ t u, step s = .next t ∧ t.kw = .awaitingRelease k ∧ t.pc = s.pc ∧ step (setKeys keys t) = .next u ∧
      (u.getV x).toNat = k.val ∧ u.kw = .idle ∧ u.pc = s.pc + 2

/-! ## The host's transactions (R176, R178, R211, R236, R237) -/

/-- R176: a tick takes 1 from each timer, not below 0, and touches nothing else, in every state; it is never refused. -/
def Obligations.TickCountsBothTimersDown : Prop :=
  ∀ x : Session, ∃ y, x.transact .tick = .next (y, .done) ∧ y.phase = x.phase ∧
    y.machine = { x.machine with dt := y.machine.dt, st := y.machine.st } ∧
    y.machine.dt.toNat = x.machine.dt.toNat - 1 ∧ y.machine.st.toNat = x.machine.st.toNat - 1

/-- R178, R165, R37: a key update sets the sixteen flags and touches nothing else; reading the display and the sound output
changes nothing and answers every pixel, and `ST ≠ 0`. That these calls are accepted in every phase of the schedule, before
the Load too, is read by inference (R211, R212), log entry 17. -/
def Obligations.KeyUpdateAndReadsTouchNothingElse : Prop :=
  ∀ x : Session,
    (∀ keys : Vector Bool 16, ∃ y, x.transact (.setKeys keys) = .next (y, .done) ∧ y.phase = x.phase ∧
      y.machine = { x.machine with key := y.machine.key } ∧ ∀ j : Fin 16, y.machine.keyDown j = keys[j.val]) ∧
    (∃ d, x.transact .readDisplay = .next (x, .display d) ∧ ∀ (c : Fin 64) (r : Fin 32), d[c.val][r.val] = x.machine.pixel c r) ∧
    (∃ b, x.transact .soundOn = .next (x, .sound b) ∧ (b = true ↔ x.machine.st.toNat ≠ 0))

/-- R236: a buffer of at most 4096 − 0x200 bytes is copied verbatim at 0x200, every other byte and all other state, `PC`
included, staying as they are; a longer one is rejected and nothing changes. -/
def Obligations.LoadCopiesOrRejects : Prop :=
  ∀ (buf : List Byte) (s : State),
    (buf.length ≤ 4096 - 0x200 → (load buf s).1 = true ∧ (load buf s).2 = { s with mem := (load buf s).2.mem } ∧
      (∀ (j : Nat) (h : j < buf.length), (load buf s).2.byteAt (0x200 + j) = buf[j]) ∧
      ∀ a, a < 0x200 ∨ 0x200 + buf.length ≤ a → (load buf s).2.byteAt a = s.byteAt a) ∧
    (4096 - 0x200 < buf.length → load buf s = (false, s))

/-- After any schedule that holds a Load or a Step, a Load is refused; before both it is not (R237). That a Load which
fails counts as the one Load is the model's choice, log entry 15; that the other calls may come before the Load is read
by inference, log entry 17. -/
def Obligations.LoadIsAcceptedOnlyFirst : Prop :=
  (∀ (sched : List Transaction) (x y : Session), Session.run sched x = .next y →
    (∃ a ∈ sched, a = .step ∨ ∃ b, a = .load b) →
    ∀ buf, y.transact (.load buf) = .refused .secondLoad ∨ y.transact (.load buf) = .refused .loadAfterStep) ∧
  (∀ (sched : List Transaction) (p : Params) (d : Draw), (∀ a ∈ sched, a ≠ .step ∧ ∀ b, a ≠ .load b) →
    ∃ y, Session.run sched (Session.create p d) = .next y ∧
      ∀ buf, ∃ z, y.transact (.load buf) = .next (z, .loaded (decide (buf.length ≤ 4096 - 0x200))))

/-! ## Creation (R36, R230 to R233) -/

/-- R36, R230, R231, R232, R233: for every FONT_BASE, FONT_DATA and every draw of what the spec leaves unspecified, creation
installs the font, starts at 0x200 with an empty stack and no key wait, leaves every other element as drawn, and the first
fetch is of the word at 0x200. After a Load that fits, memory holds the program at 0x200, the font and otherwise what was
drawn, and nothing but memory has changed. -/
def Obligations.CreationInstallsTheFontAndTheEntryPoint : Prop :=
  ∀ (p : Params) (d : Draw),
    (State.create p d).params = p ∧ (State.create p d).pc.toNat = 0x200 ∧ (State.create p d).sp.val = 0 ∧
    (State.create p d).kw = .idle ∧ (State.create p d).faulted = none ∧
    (∀ (j : Nat) (h : j < 80), (State.create p d).byteAt (p.fontBase.val + j) = p.fontData[j]) ∧
    (∀ a, a < 4096 → (a < p.fontBase.val ∨ p.fontBase.val + 80 ≤ a) → (State.create p d).byteAt a = d.mem a) ∧
    (∀ q : RegIdx, (State.create p d).getV q = d.v[q.toNat]'q.isLt) ∧
    (State.create p d).i = d.i ∧ (State.create p d).dt = d.dt ∧ (State.create p d).st = d.st ∧
    (∀ (c : Fin 64) (r : Fin 32), (State.create p d).pixel c r = d.disp[c.val][r.val]) ∧
    (∀ k : Fin 16, (State.create p d).keyDown k = d.key[k.val]) ∧
    (∀ (j : Nat) (h : j < 16), (State.create p d).stack[j]'h = d.stack[j]'h) ∧
    fetch (State.create p d) =
      .ok (wordOfBytes ((State.create p d).byteAt 0x200) ((State.create p d).byteAt 0x201)) ∧
    ∀ buf : List Byte, buf.length ≤ 4096 - 0x200 → ∃ t, load buf (State.create p d) = (true, t) ∧
      t = { State.create p d with mem := t.mem } ∧
      (∀ (j : Nat) (h : j < buf.length), t.byteAt (0x200 + j) = buf[j]) ∧
      (∀ (j : Nat) (h : j < 80), t.byteAt (p.fontBase.val + j) = p.fontData[j]) ∧
      ∀ a, a < 4096 → (a < p.fontBase.val ∨ p.fontBase.val + 80 ≤ a) → (a < 0x200 ∨ 0x200 + buf.length ≤ a) →
        t.byteAt a = d.mem a

/-- The model's choice (log entries 1 to 10): `State.reset` is the creation with the conventional parameters and the draw
the log names, so what is stated of every creation holds of it. -/
def Obligations.ResetIsTheNamedCreation : Prop :=
  State.reset = State.create Params.conventional Draw.named

/-! ## Whole-machine rules: what an instruction leaves unchanged -/

/-- R21: no register but the flag register is implicitly written. A general register that no destination field names, and
that is not VF under a flag-writing instruction, is unchanged. -/
def Obligations.OnlyNamedRegistersAndTheFlagChange : Prop :=
  ∀ (i : Instr) (s t : State) (q : RegIdx), exec i s = .next t → namesDestination i q = false →
    (q = 15 → writesFlag i = false) → t.getV q = s.getV q

/-- R23, R146: `I` is changed by LD I, ADD I and LD F only; no access moves it. -/
def Obligations.OnlyIndexInstructionsChangeI : Prop :=
  ∀ (i : Instr) (s t : State), exec i s = .next t → (∀ nnn, i ≠ .ldI nnn) → (∀ x, i ≠ .addI x) → (∀ x, i ≠ .ldF x) →
    t.i = s.i

/-- R52, R54, R56: every byte of memory is unchanged but the bytes the instruction stores, from the address in `I`: three
for LD B, `x + 1` for LD [I], none for any other instruction. -/
def Obligations.MemoryChangesOnlyAtTheStoredBytes : Prop :=
  ∀ (i : Instr) (s t : State), exec i s = .next t →
    ∀ a, (∀ k, k < bytesStored i → a ≠ indexed s k) → t.byteAt a = s.byteAt a

/-- R28: the display is changed by CLS and DRW only. -/
def Obligations.OnlyClsAndDrwChangeTheDisplay : Prop :=
  ∀ (i : Instr) (s t : State), exec i s = .next t → i ≠ .cls → (∀ x y n, i ≠ .drw x y n) →
    ∀ c r, t.pixel c r = s.pixel c r

/-- R25, R27: the stack pointer is changed by CALL and RET only and the entries by CALL only, and then no entry below
the stack pointer changes. -/
def Obligations.OnlyCallAndRetChangeTheStack : Prop :=
  ∀ (i : Instr) (s t : State), exec i s = .next t →
    ((∀ nnn, i ≠ .call nnn) → i ≠ .ret → t.sp = s.sp) ∧ ((∀ nnn, i ≠ .call nnn) → t.stack = s.stack) ∧
    ∀ (j : Nat) (h : j < 16), j < s.sp.val → t.stack[j]'h = s.stack[j]'h

/-- R30, R31, R133: DT is changed by LD DT,Vx only, ST by LD ST,Vx only, the key wait by LD Vx,K only, and a random byte is
taken by RND only (the counter of draws is the model's own, log entry 10). -/
def Obligations.TimersKeyWaitAndDrawsHaveOneWriter : Prop :=
  ∀ (i : Instr) (s t : State), exec i s = .next t →
    ((∀ x, i ≠ .ldDtVx x) → t.dt = s.dt) ∧ ((∀ x, i ≠ .ldStVx x) → t.st = s.st) ∧
    ((∀ x, i ≠ .ldVxK x) → t.kw = s.kw) ∧ ((∀ x kk, i ≠ .rnd x kk) → t.draws = s.draws)

/-- R71: an instruction that is no jump, call, return, skip or key wait leaves `PC` at `a + 2`. -/
def Obligations.StraightLineInstructionsLeaveThePc : Prop :=
  ∀ (i : Instr) (s t : State), exec i s = .next t → mayMovePc i = false → t.pc = s.pc

/-- R29, R211: a Step writes neither the keys nor the parameters, not even a Step that faults (what a faulting step leaves
is the model's choice within R201, log entry 12); and a step that goes on leaves the machine unfaulted. -/
def Obligations.StepsNeverWriteKeysOrParameters : Prop :=
  (∀ (s t : State) (f : Option Fault), afterStep s = .next (t, f) → t.key = s.key ∧ t.params = s.params) ∧
  (∀ s t : State, step s = .next t → t.faulted = none)

/-- R200, "no other condition faults": an instruction goes to a next state exactly when none of the conditions of R200's
table holds for it, and otherwise faults; nothing is refused. -/
def Obligations.InstructionsCompleteExactlyWhenNoConditionHolds : Prop :=
  ∀ (i : Instr) (s : State),
    (completes i s = true → ∃ t, exec i s = .next t) ∧ (completes i s = false → ∃ f, exec i s = .fault f)

/-- R200, R202: the record of a fault of each instruction: its code, the first value reached that breaks the condition,
and the address of the faulting instruction. -/
def Obligations.FaultRecordsFollowTheTable : Prop :=
  ∀ (i : Instr) (s : State) (f : Fault), exec i s = .fault f → f.address = s.pc - 2 ∧
    ((f.code = 2 ∧ f.info = max s.i.toNat 4096 ∧ ((∃ x y n, i = .drw x y n) ∨ ∃ x, i = .ldVxMem x)) ∨
     (f.code = 3 ∧ f.info = max s.i.toNat 4096 ∧ ((∃ x, i = .ldB x) ∨ ∃ x, i = .ldMemVx x)) ∨
     (f.code = 4 ∧ f.info = s.pc.toNat ∧ ∃ nnn, i = .call nnn) ∨
     (f.code = 5 ∧ f.info = s.pc.toNat ∧ i = .ret) ∨
     (f.code = 6 ∧ ∃ x, f.info = (s.getV x).toNat ∧ (i = .skp x ∨ i = .sknp x)))

/-- R30 (C9): no instruction can read ST. Two states that differ in ST alone take the same instruction to the same
outcome, ST apart. For RND this rests on both runs taking the same byte from one counter, the model's choice, log entry
10: two runs of the hardware may draw differently. -/
def Obligations.NoInstructionReadsTheSoundTimer : Prop :=
  ∀ (i : Instr) (s : State) (b : Byte),
    (∀ t, exec i s = .next t → ∃ u, exec i { s with st := b } = .next u ∧ u = { t with st := u.st }) ∧
    (∀ f, exec i s = .fault f → exec i { s with st := b } = .fault f)

/-! ## The invariant (R243, and the memory's canonical form) -/

/-- The invariant holds at reset. -/
def Obligations.InvariantHoldsAtReset : Prop := State.reset.Inv

/-- Every step keeps the invariant: memory stays canonical, and a pending key wait stays at an LD Vx,K that `PC` points
at, so no other instruction observes it (R243). -/
def Obligations.StepKeepsTheInvariant : Prop :=
  ∀ s t : State, s.Inv → step s = .next t → t.Inv

/-- For every parameters, every creation draw and every order of host calls the schedule rules accept (R211, R212, R237),
the machine a session reaches meets the invariant. That a faulted machine's memory is canonical rests on the model's
choice of what a faulting step leaves, log entry 12 (R201 gives such a run no meaning); which orders are accepted rests on
log entries 15 and 17. -/
def Obligations.EveryScheduleKeepsTheInvariant : Prop :=
  ∀ (p : Params) (d : Draw) (sched : List Transaction) (y : Session),
    Session.run sched (Session.create p d) = .next y → y.machine.Inv

/-- R246: an end-of-run state is one every later step leaves unchanged, and from it every number of steps runs without a
fault; ticks keep it an end of run. -/
def Obligations.EndOfRunIsLeftUnchanged : Prop :=
  ∀ s : State, endOfRun s = true →
    step s = .next s ∧ (∀ k, runsSafely k s = true) ∧ endOfRun (tick s) = true

/-! ## The schedule and the Step transaction (R35, R201, R211, R212, R234) -/

/-- The boot order (R212, R234, D19): a Step before the Load is refused, so a schedule from creation with a Step and no Load
runs into that refusal; once the one Load was called, every order and number of the other calls is accepted. That this
holds after a Load that failed too is the model's choice, log entry 15; that calls other than a Step may come before the
Load is read by inference, log entry 17. -/
def Obligations.StepsWaitForTheLoad : Prop :=
  (∀ x : Session, x.phase = .created → x.transact .step = .refused .stepBeforeLoad) ∧
  (∀ (sched : List Transaction) (p : Params) (d : Draw), .step ∈ sched → (∀ a ∈ sched, ∀ b, a ≠ .load b) →
    Session.run sched (Session.create p d) = .refused .stepBeforeLoad) ∧
  (∀ (before after : List Transaction) (buf : List Byte) (p : Params) (d : Draw),
    (∀ a ∈ before, a ≠ .step ∧ ∀ b, a ≠ .load b) → (∀ a ∈ after, ∀ b, a ≠ .load b) →
    ∃ y, Session.run (before ++ .load buf :: after) (Session.create p d) = .next y)

/-- The Step transaction reports the step (R71, R201, R211): a step that goes on is the machine's new state, and nothing is
reported; a step that raises on an unfaulted machine sets the fault mark and its fault is reported (R35). Once set, the
mark stays through every later call the host may make (R35, R201). -/
def Obligations.StepTransactionReportsTheStep : Prop :=
  (∀ (s : State) (ph : Phase), ph ≠ .created →
    (∀ t, step s = .next t → (Session.mk s ph).transact .step = .next (⟨t, .stepped⟩, .done)) ∧
    (∀ f, s.faulted = none → step s = .fault f →
      ∃ u, (Session.mk s ph).transact .step = .next (⟨u, .stepped⟩, .stopped f) ∧ u.faulted = some f)) ∧
  (∀ (sched : List Transaction) (x y : Session) (f : Fault), x.machine.faulted = some f →
    Session.run sched x = .next y → y.machine.faulted = some f)
end

