-- ==== Sys2Proof/Laws/Decode.lean ====
section
/-! SUPPORT. The decoder's table and fields: at most one row matches a word (R78), so a word of a row gets that row's tag; the
fields of a word built from them; the decoder's two answers. -/

namespace Sys2Proof

/-- Every operand has its field's width, so every instruction is well formed (R22). -/
theorem Instr.wellFormed_all (i : Instr) : i.wellFormed = true := by
  cases i <;> simp only [Instr.wellFormed, Bool.and_eq_true, decide_eq_true_eq] <;> omega

/-- Two rows clash on no bit: some bit that both masks select differs in their patterns. -/
def Row.apart (r q : Row) : Bool := (r.pattern ^^^ q.pattern) &&& (r.mask &&& q.mask) != 0

/-- Any two rows of R75's table differ in a bit both masks select (R78). -/
theorem opcodeTable_apart : opcodeTable.Pairwise fun r q => r.apart q = true := by decide

theorem Row.apart_not_both {r q : Row} (h : r.apart q = true) (w : Word) (hr : r.matches w = true) :
    q.matches w = false := by
  simp only [Row.apart, Row.matches, bne_iff_ne, ne_eq, beq_iff_eq] at *
  by_contra hq
  simp only [Bool.not_eq_false, beq_iff_eq] at hq
  apply h
  rw [← hr, ← hq]
  ext k hk
  simp only [BitVec.getElem_and, BitVec.getElem_xor]
  cases w[k] <;> cases r.mask[k] <;> cases q.mask[k] <;> simp

theorem find_of_pairwise_apart {l : List Row} (hl : l.Pairwise fun r q => r.apart q = true) {r : Row} (hr : r ∈ l)
    {w : Word} (hw : r.matches w = true) : l.find? (fun r => r.matches w) = some r := by
  induction l with
  | nil => simp at hr
  | cons q l ih =>
    obtain ⟨hq, hl⟩ := List.pairwise_cons.mp hl
    obtain rfl | hr := List.mem_cons.mp hr
    · simp [List.find?, hw]
    · have : q.matches w = false := by
        by_contra e
        have := Row.apart_not_both (hq r hr) w (by simpa using e)
        rw [hw] at this
        cases this
      simp [List.find?, this, ih hl hr]

/-- A word of a row has that row's tag (R75, R78). -/
theorem tagOf_of_matches {r : Row} (hr : r ∈ opcodeTable) {w : Word} (hw : r.matches w = true) : tagOf w = r.tag := by
  simp [tagOf, find_of_pairwise_apart opcodeTable_apart hr hw]

/-- The decoder's two answers (R75, R76): an instruction of the word's own fields, or the rejection of that word. -/
theorem decode_cases (w : Word) :
    (∃ i, (decodeFields w).toInstr = some i ∧ decode w = .ok i) ∨
      ((decodeFields w).toInstr = none ∧ decode w = .error (.unknown w)) := by
  unfold decode
  cases h : (decodeFields w).toInstr with
  | none => exact .inr ⟨rfl, rfl⟩
  | some i => exact .inl ⟨i, rfl, rfl⟩

/-! ### The formats of R74 as numbers, and the fields of R72 in them -/

theorem append_toNat {m n : Nat} (a : BitVec m) (b : BitVec n) : (a ++ b).toNat = a.toNat * 2 ^ n + b.toNat := by
  rw [BitVec.toNat_append, ← Nat.shiftLeft_add_eq_or_of_lt b.isLt, Nat.shiftLeft_eq]

theorem formatA_toNat (op : BitVec 4) (nnn : Addr) : (formatA op nnn).toNat = op.toNat * 4096 + nnn.toNat :=
  append_toNat op nnn

theorem formatXK_toNat (op : BitVec 4) (x : RegIdx) (kk : Byte) :
    (formatXK op x kk).toNat = op.toNat * 4096 + x.toNat * 256 + kk.toNat := by
  have h : (formatXK op x kk).toNat = (op ++ x).toNat * 2 ^ 8 + kk.toNat := append_toNat (op ++ x) kk
  have h2 : (op ++ x).toNat = op.toNat * 2 ^ 4 + x.toNat := append_toNat op x
  rw [h, h2]; ring

theorem formatXF_toNat (op : BitVec 4) (x : RegIdx) (f : Byte) :
    (formatXF op x f).toNat = op.toNat * 4096 + x.toNat * 256 + f.toNat := formatXK_toNat op x f

theorem formatXYN_toNat (op : BitVec 4) (x y : RegIdx) (n : BitVec 4) :
    (formatXYN op x y n).toNat = op.toNat * 4096 + x.toNat * 256 + y.toNat * 16 + n.toNat := by
  have h : (formatXYN op x y n).toNat = ((op ++ x) ++ y).toNat * 2 ^ 4 + n.toNat := append_toNat ((op ++ x) ++ y) n
  have h2 : ((op ++ x) ++ y).toNat = (op ++ x).toNat * 2 ^ 4 + y.toNat := append_toNat (op ++ x) y
  have h3 : (op ++ x).toNat = op.toNat * 2 ^ 4 + x.toNat := append_toNat op x
  rw [h, h2, h3]; ring

theorem field_toNat (w : Word) (lo len : Nat) : (w.extractLsb' lo len).toNat = w.toNat / 2 ^ lo % 2 ^ len := by
  rw [BitVec.extractLsb'_toNat, Nat.shiftRight_eq_div_pow]

/-! ### The formats under the masks of R75 -/

theorem and_none {n : Nat} (a : BitVec n) : a &&& (0 : BitVec n) = 0 := BitVec.and_zero

theorem and_nibble (a : BitVec 4) : a &&& (0xF : BitVec 4) = a := BitVec.and_allOnes

theorem and_byte (a : BitVec 8) : a &&& (0xFF : BitVec 8) = a := BitVec.and_allOnes

theorem formatA_and (op : BitVec 4) (nnn : Addr) : formatA op nnn &&& 0xF000 = formatA op 0 := by
  rw [show (0xF000 : Word) = (0xF : BitVec 4) ++ (0 : BitVec 12) from rfl]
  unfold formatA
  rw [BitVec.and_append, and_none, and_nibble]

theorem formatXK_and (op : BitVec 4) (x : RegIdx) (kk : Byte) : formatXK op x kk &&& 0xF000 = formatXK op 0 0 := by
  rw [show (0xF000 : Word) = ((0xF : BitVec 4) ++ (0 : BitVec 4)) ++ (0 : BitVec 8) from rfl]
  unfold formatXK
  rw [BitVec.and_append, BitVec.and_append, and_none, and_none, and_nibble]

theorem formatXF_and (op : BitVec 4) (x : RegIdx) (f : Byte) : formatXF op x f &&& 0xF0FF = formatXF op 0 f := by
  rw [show (0xF0FF : Word) = ((0xF : BitVec 4) ++ (0 : BitVec 4)) ++ (0xFF : BitVec 8) from rfl]
  unfold formatXF
  rw [BitVec.and_append, BitVec.and_append, and_none, and_nibble, and_byte]

theorem formatXYF_and (op : BitVec 4) (x y : RegIdx) (f : BitVec 4) :
    formatXYN op x y f &&& 0xF00F = formatXYN op 0 0 f := by
  rw [show (0xF00F : Word) = (((0xF : BitVec 4) ++ (0 : BitVec 4)) ++ (0 : BitVec 4)) ++ (0xF : BitVec 4) from rfl]
  unfold formatXYN
  rw [BitVec.and_append, BitVec.and_append, BitVec.and_append, and_none, and_none, and_nibble, and_nibble]

theorem formatXYN_and (op : BitVec 4) (x y : RegIdx) (n : BitVec 4) :
    formatXYN op x y n &&& 0xF000 = formatXYN op 0 0 0 := by
  rw [show (0xF000 : Word) = (((0xF : BitVec 4) ++ (0 : BitVec 4)) ++ (0 : BitVec 4)) ++ (0 : BitVec 4) from rfl]
  unfold formatXYN
  rw [BitVec.and_append, BitVec.and_append, BitVec.and_append, and_none, and_none, and_none, and_nibble]

/-! ### The masks of R75 as numbers -/

theorem formatXYN_fields (w : Word) :
    formatXYN (w.extractLsb' 12 4) (w.extractLsb' 8 4) (w.extractLsb' 4 4) (w.extractLsb' 0 4) = w := by
  apply BitVec.eq_of_toNat_eq
  simp only [formatXYN_toNat, field_toNat, Nat.reducePow]
  omega

theorem formatXF_fields (w : Word) : formatXF (w.extractLsb' 12 4) (w.extractLsb' 8 4) (w.extractLsb' 0 8) = w := by
  apply BitVec.eq_of_toNat_eq
  simp only [formatXF_toNat, field_toNat, Nat.reducePow]
  omega

/-- The mask of formats A, XK and XYN keeps the op nibble. -/
theorem mask_F000 (w : Word) : (w &&& 0xF000).toNat = w.toNat / 4096 * 4096 := by
  rw [← formatXYN_fields w, formatXYN_and]
  simp only [formatXYN_toNat, field_toNat, Nat.reducePow, BitVec.ofNat_eq_ofNat, BitVec.toNat_ofNat]
  omega

/-- The mask of format XYF keeps the op nibble and the function nibble. -/
theorem mask_F00F (w : Word) : (w &&& 0xF00F).toNat = w.toNat / 4096 * 4096 + w.toNat % 16 := by
  rw [← formatXYN_fields w, formatXYF_and]
  simp only [formatXYN_toNat, field_toNat, Nat.reducePow, BitVec.ofNat_eq_ofNat, BitVec.toNat_ofNat]
  omega

/-- The mask of format XF keeps the op nibble and the function byte. -/
theorem mask_F0FF (w : Word) : (w &&& 0xF0FF).toNat = w.toNat / 4096 * 4096 + w.toNat % 256 := by
  rw [← formatXF_fields w, formatXF_and]
  simp only [formatXF_toNat, field_toNat, Nat.reducePow, BitVec.ofNat_eq_ofNat, BitVec.toNat_ofNat]
  omega

/-- The mask of format O keeps the whole word. -/
theorem mask_FFFF (w : Word) : (w &&& 0xFFFF).toNat = w.toNat :=
  congrArg BitVec.toNat (BitVec.and_allOnes (x := w))

/-- What the tag of a word can be: that of a row it matches, or UNKNOWN when it matches none. -/
theorem tagOf_cases (w : Word) :
    (∃ r ∈ opcodeTable, r.matches w = true ∧ tagOf w = r.tag) ∨
      (tagOf w = .unknown ∧ ∀ r ∈ opcodeTable, r.matches w = false) := by
  unfold tagOf
  cases h : opcodeTable.find? (fun r => r.matches w) with
  | none => exact .inr ⟨rfl, fun r hr => by simpa using List.find?_eq_none.mp h r hr⟩
  | some r => exact .inl ⟨r, List.mem_of_find?_eq_some h, by simpa using List.find?_some h, rfl⟩

/-- The two bytes of a word put together are the word (R53). -/
theorem wordOfBytes_split (w : Word) : wordOfBytes (highByte w) (lowByte w) = w := by
  apply BitVec.eq_of_toNat_eq
  have h : (wordOfBytes (highByte w) (lowByte w)).toNat = (highByte w).toNat * 2 ^ 8 + (lowByte w).toNat :=
    append_toNat _ _
  have h2 : (highByte w).toNat = w.toNat / 2 ^ 8 % 2 ^ 8 := field_toNat w 8 8
  have h3 : (lowByte w).toNat = w.toNat / 2 ^ 0 % 2 ^ 8 := field_toNat w 0 8
  omega

end Sys2Proof
end

