-- ==== Sys2Proof/Laws/State.lean ====
section
/-! SUPPORT. The small lemmas of the state's updates: what each named update leaves in each field, and what the accessors read
after it, so that no later proof unfolds a record update. -/

namespace Sys2Proof.Machine

variable (s : State)

/-! ### setV -/

@[simp] theorem State.setV_params (x : RegIdx) (b : Byte) : (s.setV x b).params = s.params := rfl
@[simp] theorem State.setV_i (x : RegIdx) (b : Byte) : (s.setV x b).i = s.i := rfl
@[simp] theorem State.setV_pc (x : RegIdx) (b : Byte) : (s.setV x b).pc = s.pc := rfl
@[simp] theorem State.setV_sp (x : RegIdx) (b : Byte) : (s.setV x b).sp = s.sp := rfl
@[simp] theorem State.setV_stack (x : RegIdx) (b : Byte) : (s.setV x b).stack = s.stack := rfl
@[simp] theorem State.setV_mem (x : RegIdx) (b : Byte) : (s.setV x b).mem = s.mem := rfl
@[simp] theorem State.setV_disp (x : RegIdx) (b : Byte) : (s.setV x b).disp = s.disp := rfl
@[simp] theorem State.setV_key (x : RegIdx) (b : Byte) : (s.setV x b).key = s.key := rfl
@[simp] theorem State.setV_dt (x : RegIdx) (b : Byte) : (s.setV x b).dt = s.dt := rfl
@[simp] theorem State.setV_st (x : RegIdx) (b : Byte) : (s.setV x b).st = s.st := rfl
@[simp] theorem State.setV_kw (x : RegIdx) (b : Byte) : (s.setV x b).kw = s.kw := rfl
@[simp] theorem State.setV_faulted (x : RegIdx) (b : Byte) : (s.setV x b).faulted = s.faulted := rfl
@[simp] theorem State.setV_draws (x : RegIdx) (b : Byte) : (s.setV x b).draws = s.draws := rfl

@[simp] theorem State.setV_byteAt (x : RegIdx) (b : Byte) (a : Nat) : (s.setV x b).byteAt a = s.byteAt a := rfl
@[simp] theorem State.setV_pixel (x : RegIdx) (b : Byte) (p : Fin 64) (q : Fin 32) : (s.setV x b).pixel p q = s.pixel p q := rfl
@[simp] theorem State.setV_keyDown (x : RegIdx) (b : Byte) (k : Fin 16) : (s.setV x b).keyDown k = s.keyDown k := rfl

/-! ### setFlagThenV -/

@[simp] theorem State.setFlagThenV_params (x : RegIdx) (f b : Byte) : (s.setFlagThenV x f b).params = s.params := rfl
@[simp] theorem State.setFlagThenV_i (x : RegIdx) (f b : Byte) : (s.setFlagThenV x f b).i = s.i := rfl
@[simp] theorem State.setFlagThenV_pc (x : RegIdx) (f b : Byte) : (s.setFlagThenV x f b).pc = s.pc := rfl
@[simp] theorem State.setFlagThenV_sp (x : RegIdx) (f b : Byte) : (s.setFlagThenV x f b).sp = s.sp := rfl
@[simp] theorem State.setFlagThenV_stack (x : RegIdx) (f b : Byte) : (s.setFlagThenV x f b).stack = s.stack := rfl
@[simp] theorem State.setFlagThenV_mem (x : RegIdx) (f b : Byte) : (s.setFlagThenV x f b).mem = s.mem := rfl
@[simp] theorem State.setFlagThenV_disp (x : RegIdx) (f b : Byte) : (s.setFlagThenV x f b).disp = s.disp := rfl
@[simp] theorem State.setFlagThenV_key (x : RegIdx) (f b : Byte) : (s.setFlagThenV x f b).key = s.key := rfl
@[simp] theorem State.setFlagThenV_dt (x : RegIdx) (f b : Byte) : (s.setFlagThenV x f b).dt = s.dt := rfl
@[simp] theorem State.setFlagThenV_st (x : RegIdx) (f b : Byte) : (s.setFlagThenV x f b).st = s.st := rfl
@[simp] theorem State.setFlagThenV_kw (x : RegIdx) (f b : Byte) : (s.setFlagThenV x f b).kw = s.kw := rfl
@[simp] theorem State.setFlagThenV_faulted (x : RegIdx) (f b : Byte) : (s.setFlagThenV x f b).faulted = s.faulted := rfl
@[simp] theorem State.setFlagThenV_draws (x : RegIdx) (f b : Byte) : (s.setFlagThenV x f b).draws = s.draws := rfl

@[simp] theorem State.setFlagThenV_byteAt (x : RegIdx) (f b : Byte) (a : Nat) : (s.setFlagThenV x f b).byteAt a = s.byteAt a := rfl
@[simp] theorem State.setFlagThenV_pixel (x : RegIdx) (f b : Byte) (p : Fin 64) (q : Fin 32) : (s.setFlagThenV x f b).pixel p q = s.pixel p q := rfl
@[simp] theorem State.setFlagThenV_keyDown (x : RegIdx) (f b : Byte) (k : Fin 16) : (s.setFlagThenV x f b).keyDown k = s.keyDown k := rfl

/-! ### advance -/

@[simp] theorem State.advance_params : (s.advance).params = s.params := rfl
@[simp] theorem State.advance_v : (s.advance).v = s.v := rfl
@[simp] theorem State.advance_i : (s.advance).i = s.i := rfl
@[simp] theorem State.advance_pc : (s.advance).pc = s.pc + 2 := rfl
@[simp] theorem State.advance_sp : (s.advance).sp = s.sp := rfl
@[simp] theorem State.advance_stack : (s.advance).stack = s.stack := rfl
@[simp] theorem State.advance_mem : (s.advance).mem = s.mem := rfl
@[simp] theorem State.advance_disp : (s.advance).disp = s.disp := rfl
@[simp] theorem State.advance_key : (s.advance).key = s.key := rfl
@[simp] theorem State.advance_dt : (s.advance).dt = s.dt := rfl
@[simp] theorem State.advance_st : (s.advance).st = s.st := rfl
@[simp] theorem State.advance_kw : (s.advance).kw = s.kw := rfl
@[simp] theorem State.advance_faulted : (s.advance).faulted = s.faulted := rfl
@[simp] theorem State.advance_draws : (s.advance).draws = s.draws := rfl

@[simp] theorem State.advance_getV (q : RegIdx) : (s.advance).getV q = s.getV q := rfl
@[simp] theorem State.advance_byteAt (a : Nat) : (s.advance).byteAt a = s.byteAt a := rfl
@[simp] theorem State.advance_pixel (p : Fin 64) (q : Fin 32) : (s.advance).pixel p q = s.pixel p q := rfl
@[simp] theorem State.advance_keyDown (k : Fin 16) : (s.advance).keyDown k = s.keyDown k := rfl

/-! ### skip -/

@[simp] theorem State.skip_params : (s.skip).params = s.params := rfl
@[simp] theorem State.skip_v : (s.skip).v = s.v := rfl
@[simp] theorem State.skip_i : (s.skip).i = s.i := rfl
@[simp] theorem State.skip_pc : (s.skip).pc = s.pc + 2 := rfl
@[simp] theorem State.skip_sp : (s.skip).sp = s.sp := rfl
@[simp] theorem State.skip_stack : (s.skip).stack = s.stack := rfl
@[simp] theorem State.skip_mem : (s.skip).mem = s.mem := rfl
@[simp] theorem State.skip_disp : (s.skip).disp = s.disp := rfl
@[simp] theorem State.skip_key : (s.skip).key = s.key := rfl
@[simp] theorem State.skip_dt : (s.skip).dt = s.dt := rfl
@[simp] theorem State.skip_st : (s.skip).st = s.st := rfl
@[simp] theorem State.skip_kw : (s.skip).kw = s.kw := rfl
@[simp] theorem State.skip_faulted : (s.skip).faulted = s.faulted := rfl
@[simp] theorem State.skip_draws : (s.skip).draws = s.draws := rfl

@[simp] theorem State.skip_getV (q : RegIdx) : (s.skip).getV q = s.getV q := rfl
@[simp] theorem State.skip_byteAt (a : Nat) : (s.skip).byteAt a = s.byteAt a := rfl
@[simp] theorem State.skip_pixel (p : Fin 64) (q : Fin 32) : (s.skip).pixel p q = s.pixel p q := rfl
@[simp] theorem State.skip_keyDown (k : Fin 16) : (s.skip).keyDown k = s.keyDown k := rfl

/-! ### rollBack -/

@[simp] theorem State.rollBack_params : (s.rollBack).params = s.params := rfl
@[simp] theorem State.rollBack_v : (s.rollBack).v = s.v := rfl
@[simp] theorem State.rollBack_i : (s.rollBack).i = s.i := rfl
@[simp] theorem State.rollBack_pc : (s.rollBack).pc = s.pc - 2 := rfl
@[simp] theorem State.rollBack_sp : (s.rollBack).sp = s.sp := rfl
@[simp] theorem State.rollBack_stack : (s.rollBack).stack = s.stack := rfl
@[simp] theorem State.rollBack_mem : (s.rollBack).mem = s.mem := rfl
@[simp] theorem State.rollBack_disp : (s.rollBack).disp = s.disp := rfl
@[simp] theorem State.rollBack_key : (s.rollBack).key = s.key := rfl
@[simp] theorem State.rollBack_dt : (s.rollBack).dt = s.dt := rfl
@[simp] theorem State.rollBack_st : (s.rollBack).st = s.st := rfl
@[simp] theorem State.rollBack_kw : (s.rollBack).kw = s.kw := rfl
@[simp] theorem State.rollBack_faulted : (s.rollBack).faulted = s.faulted := rfl
@[simp] theorem State.rollBack_draws : (s.rollBack).draws = s.draws := rfl

@[simp] theorem State.rollBack_getV (q : RegIdx) : (s.rollBack).getV q = s.getV q := rfl
@[simp] theorem State.rollBack_byteAt (a : Nat) : (s.rollBack).byteAt a = s.byteAt a := rfl
@[simp] theorem State.rollBack_pixel (p : Fin 64) (q : Fin 32) : (s.rollBack).pixel p q = s.pixel p q := rfl
@[simp] theorem State.rollBack_keyDown (k : Fin 16) : (s.rollBack).keyDown k = s.keyDown k := rfl

/-! ### jump -/

@[simp] theorem State.jump_params (w : Word) : (s.jump w).params = s.params := rfl
@[simp] theorem State.jump_v (w : Word) : (s.jump w).v = s.v := rfl
@[simp] theorem State.jump_i (w : Word) : (s.jump w).i = s.i := rfl
@[simp] theorem State.jump_pc (w : Word) : (s.jump w).pc = w := rfl
@[simp] theorem State.jump_sp (w : Word) : (s.jump w).sp = s.sp := rfl
@[simp] theorem State.jump_stack (w : Word) : (s.jump w).stack = s.stack := rfl
@[simp] theorem State.jump_mem (w : Word) : (s.jump w).mem = s.mem := rfl
@[simp] theorem State.jump_disp (w : Word) : (s.jump w).disp = s.disp := rfl
@[simp] theorem State.jump_key (w : Word) : (s.jump w).key = s.key := rfl
@[simp] theorem State.jump_dt (w : Word) : (s.jump w).dt = s.dt := rfl
@[simp] theorem State.jump_st (w : Word) : (s.jump w).st = s.st := rfl
@[simp] theorem State.jump_kw (w : Word) : (s.jump w).kw = s.kw := rfl
@[simp] theorem State.jump_faulted (w : Word) : (s.jump w).faulted = s.faulted := rfl
@[simp] theorem State.jump_draws (w : Word) : (s.jump w).draws = s.draws := rfl

@[simp] theorem State.jump_getV (w : Word) (q : RegIdx) : (s.jump w).getV q = s.getV q := rfl
@[simp] theorem State.jump_byteAt (w : Word) (a : Nat) : (s.jump w).byteAt a = s.byteAt a := rfl
@[simp] theorem State.jump_pixel (w : Word) (p : Fin 64) (q : Fin 32) : (s.jump w).pixel p q = s.pixel p q := rfl
@[simp] theorem State.jump_keyDown (w : Word) (k : Fin 16) : (s.jump w).keyDown k = s.keyDown k := rfl

/-! ### setPixel -/

@[simp] theorem State.setPixel_params (c : Fin 64) (r : Fin 32) (b : Bool) : (s.setPixel c r b).params = s.params := rfl
@[simp] theorem State.setPixel_v (c : Fin 64) (r : Fin 32) (b : Bool) : (s.setPixel c r b).v = s.v := rfl
@[simp] theorem State.setPixel_i (c : Fin 64) (r : Fin 32) (b : Bool) : (s.setPixel c r b).i = s.i := rfl
@[simp] theorem State.setPixel_pc (c : Fin 64) (r : Fin 32) (b : Bool) : (s.setPixel c r b).pc = s.pc := rfl
@[simp] theorem State.setPixel_sp (c : Fin 64) (r : Fin 32) (b : Bool) : (s.setPixel c r b).sp = s.sp := rfl
@[simp] theorem State.setPixel_stack (c : Fin 64) (r : Fin 32) (b : Bool) : (s.setPixel c r b).stack = s.stack := rfl
@[simp] theorem State.setPixel_mem (c : Fin 64) (r : Fin 32) (b : Bool) : (s.setPixel c r b).mem = s.mem := rfl
@[simp] theorem State.setPixel_key (c : Fin 64) (r : Fin 32) (b : Bool) : (s.setPixel c r b).key = s.key := rfl
@[simp] theorem State.setPixel_dt (c : Fin 64) (r : Fin 32) (b : Bool) : (s.setPixel c r b).dt = s.dt := rfl
@[simp] theorem State.setPixel_st (c : Fin 64) (r : Fin 32) (b : Bool) : (s.setPixel c r b).st = s.st := rfl
@[simp] theorem State.setPixel_kw (c : Fin 64) (r : Fin 32) (b : Bool) : (s.setPixel c r b).kw = s.kw := rfl
@[simp] theorem State.setPixel_faulted (c : Fin 64) (r : Fin 32) (b : Bool) : (s.setPixel c r b).faulted = s.faulted := rfl
@[simp] theorem State.setPixel_draws (c : Fin 64) (r : Fin 32) (b : Bool) : (s.setPixel c r b).draws = s.draws := rfl

@[simp] theorem State.setPixel_getV (c : Fin 64) (r : Fin 32) (b : Bool) (q : RegIdx) : (s.setPixel c r b).getV q = s.getV q := rfl
@[simp] theorem State.setPixel_byteAt (c : Fin 64) (r : Fin 32) (b : Bool) (a : Nat) : (s.setPixel c r b).byteAt a = s.byteAt a := rfl
@[simp] theorem State.setPixel_keyDown (c : Fin 64) (r : Fin 32) (b : Bool) (k : Fin 16) : (s.setPixel c r b).keyDown k = s.keyDown k := rfl

/-! ### skipIf -/

@[simp] theorem State.skipIf_params (c : Bool) : (s.skipIf c).params = s.params := by cases c <;> rfl
@[simp] theorem State.skipIf_v (c : Bool) : (s.skipIf c).v = s.v := by cases c <;> rfl
@[simp] theorem State.skipIf_i (c : Bool) : (s.skipIf c).i = s.i := by cases c <;> rfl
@[simp] theorem State.skipIf_pc (c : Bool) : (s.skipIf c).pc = if c then s.pc + 2 else s.pc := by cases c <;> rfl
@[simp] theorem State.skipIf_sp (c : Bool) : (s.skipIf c).sp = s.sp := by cases c <;> rfl
@[simp] theorem State.skipIf_stack (c : Bool) : (s.skipIf c).stack = s.stack := by cases c <;> rfl
@[simp] theorem State.skipIf_mem (c : Bool) : (s.skipIf c).mem = s.mem := by cases c <;> rfl
@[simp] theorem State.skipIf_disp (c : Bool) : (s.skipIf c).disp = s.disp := by cases c <;> rfl
@[simp] theorem State.skipIf_key (c : Bool) : (s.skipIf c).key = s.key := by cases c <;> rfl
@[simp] theorem State.skipIf_dt (c : Bool) : (s.skipIf c).dt = s.dt := by cases c <;> rfl
@[simp] theorem State.skipIf_st (c : Bool) : (s.skipIf c).st = s.st := by cases c <;> rfl
@[simp] theorem State.skipIf_kw (c : Bool) : (s.skipIf c).kw = s.kw := by cases c <;> rfl
@[simp] theorem State.skipIf_faulted (c : Bool) : (s.skipIf c).faulted = s.faulted := by cases c <;> rfl
@[simp] theorem State.skipIf_draws (c : Bool) : (s.skipIf c).draws = s.draws := by cases c <;> rfl

@[simp] theorem State.skipIf_getV (c : Bool) (q : RegIdx) : (s.skipIf c).getV q = s.getV q := by cases c <;> rfl
@[simp] theorem State.skipIf_byteAt (c : Bool) (a : Nat) : (s.skipIf c).byteAt a = s.byteAt a := by cases c <;> rfl
@[simp] theorem State.skipIf_pixel (c : Bool) (p : Fin 64) (q : Fin 32) : (s.skipIf c).pixel p q = s.pixel p q := by cases c <;> rfl
@[simp] theorem State.skipIf_keyDown (c : Bool) (k : Fin 16) : (s.skipIf c).keyDown k = s.keyDown k := by cases c <;> rfl

/-! ### Register reads after writes (R20, R79) -/

theorem State.setV_getV (x q : RegIdx) (b : Byte) : (s.setV x b).getV q = if q = x then b else s.getV q := by
  unfold State.setV State.getV
  simp only [Vector.getElem_set, eq_comm (a := q), ← BitVec.toNat_inj]

@[simp] theorem State.setV_getV_same (x : RegIdx) (b : Byte) : (s.setV x b).getV x = b := by
  simp [State.setV_getV]

theorem State.setV_getV_other (x q : RegIdx) (b : Byte) (h : q ≠ x) : (s.setV x b).getV q = s.getV q := by
  simp [State.setV_getV, h]

theorem State.setFlagThenV_getV (x q : RegIdx) (f b : Byte) :
    (s.setFlagThenV x f b).getV q = if q = x then b else if q = flagReg then f else s.getV q := by
  simp only [State.setFlagThenV, State.setV_getV]

/-- The registers are their sixteen values. -/
theorem State.v_ext (s t : State) (h : ∀ q, s.getV q = t.getV q) : s.v = t.v := by
  apply Vector.ext
  intro k hk
  have := h (BitVec.ofNat 4 k)
  simpa [State.getV, Nat.mod_eq_of_lt hk] using this

/-! ### Pixel reads after writes (R28) -/

theorem State.setPixel_pixel (c p : Fin 64) (r q : Fin 32) (b : Bool) :
    (s.setPixel c r b).pixel p q = if p = c ∧ q = r then b else s.pixel p q := by
  unfold State.setPixel State.pixel
  simp only [Vector.getElem_set]
  by_cases h : c = p
  · subst h
    by_cases h2 : r = q
    · subst h2; simp
    · have h3 : ¬ r.val = q.val := fun e => h2 (Fin.ext e)
      have h4 : ¬ q = r := fun e => h2 e.symm
      simp [h3, h4]
  · have h3 : ¬ c.val = p.val := fun e => h (Fin.ext e)
    have h4 : ¬ p = c := fun e => h e.symm
    simp [h3, h4]

end Sys2Proof.Machine
end

