-- ==== Sys2Proof/Laws/Memory.lean ====
section
/-! SUPPORT. Memory: a read after a write, the canonical form kept by every memory operation, and what the byte accesses of the
machine can do. -/

namespace Sys2Proof.Machine

variable (p : Params)

/-! ### Reading after one change -/

theorem Memory.read_erase (m : Memory) (a k : Nat) :
    Memory.read p (m.erase a) k = if k = a then Memory.unlisted p k else Memory.read p m k := by
  induction m with
  | nil => simp [Memory.erase, Memory.read]
  | cons c m ih =>
    obtain ⟨b, v⟩ := c
    unfold Memory.erase at ih ⊢
    by_cases hb : b = a
    · subst hb
      simp only [List.filter, bne_self_eq_false, ih, Memory.read]
      by_cases hk : k = b
      · simp [hk]
      · simp [hk, Ne.symm hk]
    · have : (b != a) = true := by simpa using hb
      simp only [List.filter, this, Memory.read, ih]
      by_cases hk : b = k
      · subst hk; simp [hb]
      · simp [hk]

theorem Memory.read_insert (m : Memory) (a k : Nat) (v : Byte) (h : ∀ c ∈ m, c.1 ≠ a) :
    Memory.read p (Memory.insert a v m) k = if k = a then v else Memory.read p m k := by
  induction m with
  | nil => simp [Memory.insert, Memory.read, eq_comm (a := a)]
  | cons c m ih =>
    obtain ⟨b, w⟩ := c
    have hb : b ≠ a := h (b, w) (by simp)
    have ih := ih fun c hc => h c (by simp [hc])
    unfold Memory.insert
    split
    · simp only [Memory.read, eq_comm (a := a)]
    · simp only [Memory.read, ih]
      by_cases hk : b = k
      · subst hk; simp [hb]
      · simp [hk]

theorem Memory.erase_keys (m : Memory) (a : Nat) : ∀ c ∈ m.erase a, c.1 ≠ a := by
  intro c hc
  simpa using (List.mem_filter.mp hc).2

/-- A read after a write, for every memory (R51, R52, R56): the byte written at its address, the old one elsewhere. -/
theorem Memory.read_write (m : Memory) (a k : Nat) (v : Byte) :
    Memory.read p (m.write p a v) k = if k = a then v else Memory.read p m k := by
  unfold Memory.write
  split
  · next h =>
    rw [Memory.read_erase]
    split
    · next hk => rw [hk, h]
    · rfl
  · rw [Memory.read_insert _ _ _ _ _ (Memory.erase_keys m a), Memory.read_erase]
    split <;> rfl

/-- Bytes written from `a` upward read back in their order, every other address as before. -/
theorem Memory.read_writeBytes (m : Memory) (a k : Nat) (bs : List Byte) :
    Memory.read p (m.writeBytes p a bs) k =
      if h : a ≤ k ∧ k < a + bs.length then bs[k - a]'(by omega) else Memory.read p m k := by
  induction bs generalizing m a with
  | nil => rw [dif_neg (by simp)]; rfl
  | cons b bs ih =>
    simp only [Memory.writeBytes, ih, Memory.read_write, List.length_cons]
    by_cases hk : k = a
    · subst hk
      rw [dif_neg (by omega), dif_pos (by omega)]
      simp
    · by_cases h2 : a + 1 ≤ k ∧ k < a + 1 + bs.length
      · rw [dif_pos h2, dif_pos (by omega)]
        have h3 : k - a = (k - (a + 1)) + 1 := by omega
        simp only [h3, List.getElem_cons_succ]
      · rw [dif_neg h2, dif_neg (by omega)]
        simp [hk]

/-! ### The canonical form -/

theorem Memory.wfFrom_mono (m : Memory) {lo hi : Nat} (h : lo ≤ hi) (w : Memory.wfFrom p hi m = true) :
    Memory.wfFrom p lo m = true := by
  cases m with
  | nil => rfl
  | cons c m =>
    simp only [Memory.wfFrom, Bool.and_eq_true, decide_eq_true_eq] at w ⊢
    exact ⟨⟨⟨by omega, w.1.1.2⟩, w.1.2⟩, w.2⟩

theorem Memory.wfFrom_erase (m : Memory) (lo a : Nat) (w : Memory.wfFrom p lo m = true) :
    Memory.wfFrom p lo (m.erase a) = true := by
  induction m generalizing lo with
  | nil => rfl
  | cons c m ih =>
    obtain ⟨b, v⟩ := c
    unfold Memory.erase at ih ⊢
    simp only [Memory.wfFrom, Bool.and_eq_true, decide_eq_true_eq] at w
    by_cases hb : b = a
    · subst hb
      simp only [List.filter, bne_self_eq_false]
      exact ih lo (Memory.wfFrom_mono p m (by omega) w.2)
    · have : (b != a) = true := by simpa using hb
      simp only [List.filter, this, Memory.wfFrom, Bool.and_eq_true, decide_eq_true_eq]
      exact ⟨w.1, ih _ w.2⟩

theorem Memory.wfFrom_insert (m : Memory) (lo a : Nat) (v : Byte) (w : Memory.wfFrom p lo m = true)
    (hk : ∀ c ∈ m, c.1 ≠ a) (hlo : lo ≤ a) (ha : a < 4096) (hv : v ≠ Memory.unlisted p a) :
    Memory.wfFrom p lo (Memory.insert a v m) = true := by
  induction m generalizing lo with
  | nil => simp [Memory.insert, Memory.wfFrom, hlo, ha, hv]
  | cons c m ih =>
    obtain ⟨b, u⟩ := c
    have hb : b ≠ a := hk (b, u) (by simp)
    simp only [Memory.wfFrom, Bool.and_eq_true, decide_eq_true_eq] at w
    unfold Memory.insert
    split
    · simp only [Memory.wfFrom, Bool.and_eq_true, decide_eq_true_eq, bne_iff_ne]
      exact ⟨⟨⟨hlo, ha⟩, hv⟩, ⟨⟨by omega, w.1.1.2⟩, by simpa using w.1.2⟩, w.2⟩
    · simp only [Memory.wfFrom, Bool.and_eq_true, decide_eq_true_eq]
      exact ⟨w.1, ih (b + 1) w.2 (fun c hc => hk c (by simp [hc])) (by omega)⟩

/-- A write below 4096 keeps the canonical form. -/
theorem Memory.write_wf (m : Memory) (a : Nat) (v : Byte) (ha : a < 4096) (w : Memory.wf p m = true) :
    Memory.wf p (m.write p a v) = true := by
  unfold Memory.write Memory.wf at *
  split
  · exact Memory.wfFrom_erase p m 0 a w
  · next h =>
    exact Memory.wfFrom_insert p _ 0 a v (Memory.wfFrom_erase p m 0 a w) (Memory.erase_keys m a) (by omega) ha h

/-- Writes that stay below 4096 keep the canonical form. -/
theorem Memory.writeBytes_wf (m : Memory) (a : Nat) (bs : List Byte) (ha : a + bs.length ≤ 4096)
    (w : Memory.wf p m = true) : Memory.wf p (m.writeBytes p a bs) = true := by
  induction bs generalizing m a with
  | nil => exact w
  | cons b bs ih =>
    simp only [List.length_cons] at ha
    exact ih _ _ (by omega) (Memory.write_wf p m a b (by omega) w)

theorem Memory.read_map_filter (f : Nat → Byte) (l : List Nat) (k : Nat) :
    Memory.read p ((l.filter fun a => f a != Memory.unlisted p a).map fun a => (a, f a)) k =
      if k ∈ l then f k else Memory.unlisted p k := by
  induction l with
  | nil => rfl
  | cons a l ih =>
    by_cases ha : f a = Memory.unlisted p a
    · have : (f a != Memory.unlisted p a) = false := by simpa using ha
      simp only [List.filter, this, ih, List.mem_cons]
      by_cases hk : k = a
      · subst hk; simp [ha]
      · simp [hk]
    · have : (f a != Memory.unlisted p a) = true := by simpa using ha
      simp only [List.filter, this, List.map, Memory.read, ih, List.mem_cons]
      by_cases hk : a = k
      · subst hk; simp
      · simp [hk, Ne.symm hk]

/-- The bytes of `Memory.ofBytes`: the function below 4096. -/
theorem Memory.read_ofBytes (f : Nat → Byte) (k : Nat) :
    Memory.read p (Memory.ofBytes p f) k = if k < 4096 then f k else Memory.unlisted p k := by
  simp [Memory.ofBytes, Memory.read_map_filter]

theorem Memory.wfFrom_range (f : Nat → Byte) (n lo : Nat) (h : lo + n ≤ 4096) :
    Memory.wfFrom p lo (((List.range' lo n).filter fun a => f a != Memory.unlisted p a).map fun a => (a, f a)) = true := by
  induction n generalizing lo with
  | zero => rfl
  | succ n ih =>
    have ih := ih (lo + 1) (by omega)
    simp only [List.range'_succ, List.filter]
    split
    · next hb =>
      simp only [List.map, Memory.wfFrom, Bool.and_eq_true, decide_eq_true_eq]
      exact ⟨⟨⟨by omega, by omega⟩, hb⟩, ih⟩
    · exact Memory.wfFrom_mono p _ (by omega) ih

theorem Memory.ofBytes_wf (f : Nat → Byte) : Memory.wf p (Memory.ofBytes p f) = true := by
  rw [Memory.wf, Memory.ofBytes]
  exact Memory.wfFrom_range p f 4096 0 (by omega)

theorem Memory.write_nil_unlisted (a : Nat) : Memory.write p [] a (Memory.unlisted p a) = [] := by
  simp [Memory.write, Memory.erase]

/-- Below the first address a canonical list may hold, every address is unlisted. -/
theorem Memory.read_below (m : Memory) (lo k : Nat) (w : Memory.wfFrom p lo m = true) (hk : k < lo) :
    Memory.read p m k = Memory.unlisted p k := by
  induction m generalizing lo with
  | nil => rfl
  | cons c m ih =>
    simp only [Memory.wfFrom, Bool.and_eq_true, decide_eq_true_eq] at w
    simp only [Memory.read]
    rw [if_neg (by omega), ih (c.1 + 1) w.2 (by omega)]

theorem Memory.wfFrom_ext (m n : Memory) (lo : Nat) (wm : Memory.wfFrom p lo m = true)
    (wn : Memory.wfFrom p lo n = true) (h : ∀ k, Memory.read p m k = Memory.read p n k) : m = n := by
  induction m generalizing n lo with
  | nil =>
    cases n with
    | nil => rfl
    | cons c n =>
      simp only [Memory.wfFrom, Bool.and_eq_true, decide_eq_true_eq, bne_iff_ne] at wn
      have := h c.1
      simp only [Memory.read, if_pos] at this
      exact absurd this.symm wn.1.2
  | cons c m ih =>
    cases n with
    | nil =>
      simp only [Memory.wfFrom, Bool.and_eq_true, decide_eq_true_eq, bne_iff_ne] at wm
      have := h c.1
      simp only [Memory.read, if_pos] at this
      exact absurd this wm.1.2
    | cons d n =>
      simp only [Memory.wfFrom, Bool.and_eq_true, decide_eq_true_eq, bne_iff_ne] at wm wn
      have hc := h c.1
      have hd := h d.1
      simp only [Memory.read, if_pos] at hc hd
      have e : c.1 = d.1 := by
        by_contra ne
        obtain lt | lt := Nat.lt_or_gt_of_ne ne
        · rw [if_neg (by omega), Memory.read_below p n (d.1 + 1) c.1 wn.2 (by omega)] at hc
          exact wm.1.2 hc
        · rw [if_neg (by omega), Memory.read_below p m (c.1 + 1) d.1 wm.2 (by omega)] at hd
          exact wn.1.2 hd.symm
      rw [if_pos e.symm] at hc
      have e2 : c = d := Prod.ext e hc
      subst e2
      rw [ih n (c.1 + 1) wm.2 wn.2 fun k => ?_]
      by_cases hk : k < c.1 + 1
      · rw [Memory.read_below p m _ k wm.2 hk, Memory.read_below p n _ k wn.2 hk]
      · have := h k
        simpa only [Memory.read, if_neg (show ¬ c.1 = k by omega)] using this

/-- Equal memories are equal data: two canonical memories that read the same everywhere are the same list. -/
theorem Memory.wf_ext (m n : Memory) (wm : Memory.wf p m = true) (wn : Memory.wf p n = true)
    (h : ∀ k, Memory.read p m k = Memory.read p n k) : m = n :=
  Memory.wfFrom_ext p m n 0 wm wn h

/-! ### The machine's byte accesses (R51, R52, R58) -/

/-- `MemRead` answers the byte, exactly below 4096. -/
theorem memRead_cases (s : State) (a : Nat) :
    (a < 4096 ∧ memRead s a = .ok (s.byteAt a)) ∨ (4096 ≤ a ∧ memRead s a = .error (.readRange a s.instrAddr)) := by
  unfold memRead
  split <;> simp <;> omega

/-- `MemWrite` answers the state with the byte written, exactly below 4096. -/
theorem memWrite_cases (s : State) (a : Nat) (b : Byte) :
    (a < 4096 ∧ memWrite s a b = .ok { s with mem := Memory.write s.params s.mem a b }) ∨
      (4096 ≤ a ∧ memWrite s a b = .error (.writeRange a s.instrAddr)) := by
  unfold memWrite
  split <;> simp <;> omega

/-- Everything `storeBytes` can do: all the bytes, when the last address is below 4096 (or there is none), else the
fault of the lowest address that is not. -/
theorem storeBytes_cases (s : State) (a : Nat) (bs : List Byte) :
    ((bs = [] ∨ a + bs.length ≤ 4096) ∧
      storeBytes s a bs = .ok { s with mem := Memory.writeBytes s.params s.mem a bs }) ∨
    (bs ≠ [] ∧ 4096 < a + bs.length ∧ storeBytes s a bs = .error (.writeRange (max a 4096) s.instrAddr)) := by
  induction bs generalizing s a with
  | nil => exact .inl ⟨.inl rfl, rfl⟩
  | cons b bs ih =>
    obtain ⟨ha, e⟩ | ⟨ha, e⟩ := memWrite_cases s a b
    · have e2 : storeBytes s a (b :: bs) =
          storeBytes { s with mem := Memory.write s.params s.mem a b } (a + 1) bs := by simp [storeBytes, e]
      obtain ⟨h, e3⟩ | ⟨h, h2, e3⟩ := ih { s with mem := Memory.write s.params s.mem a b } (a + 1)
      · refine .inl ⟨.inr ?_, by rw [e2, e3]; rfl⟩
        obtain h | h := h
        · simp [h]; omega
        · simp only [List.length_cons]; omega
      · refine .inr ⟨by simp, by simp only [List.length_cons]; omega, ?_⟩
        rw [e2, e3, show max (a + 1) 4096 = max a 4096 by omega]
        rfl
    · exact .inr ⟨by simp, by simp only [List.length_cons]; omega, by simp [storeBytes, e, Nat.max_eq_left ha]⟩

end Sys2Proof.Machine
end

