-- ==== Sys2Proof/Laws/Ops.lean ====
section
/-! SUPPORT. For each shared operation that is not a plain update, one lemma that says everything it can do. -/

namespace Sys2Proof.Machine

variable (s : State)

/-! ### The stack (R27) -/

/-- `Push` answers the entry at `SP` and `SP + 1`, exactly when `SP < 16`. -/
theorem push_cases (w : Word) :
    (∃ h : s.sp.val < 16, push s w =
      .ok { s with stack := s.stack.set s.sp.val w h, sp := ⟨s.sp.val + 1, by omega⟩ }) ∨
    (s.sp.val = 16 ∧ push s w = .error (.stackOverflow s.pc.toNat s.instrAddr)) := by
  unfold push
  split
  · next h => exact .inl ⟨h, rfl⟩
  · exact .inr ⟨by have := s.sp.isLt; omega, rfl⟩

/-- `Pop` answers the entry below `SP` and `SP - 1`, exactly when `SP > 0`. -/
theorem pop_cases :
    (∃ h : 0 < s.sp.val, pop s =
      .ok (s.stack[s.sp.val - 1]'(by omega), { s with sp := ⟨s.sp.val - 1, by omega⟩ })) ∨
    (s.sp.val = 0 ∧ pop s = .error (.stackUnderflow s.pc.toNat s.instrAddr)) := by
  unfold pop
  split
  · next h => exact .inl ⟨h, rfl⟩
  · exact .inr ⟨by omega, rfl⟩

/-! ### Fetch (R53) and keys (R173, R177) -/

theorem fetch_cases :
    (s.pc.toNat + 1 < 4096 ∧
      fetch s = .ok (wordOfBytes (s.byteAt s.pc.toNat) (s.byteAt (s.pc.toNat + 1)))) ∨
    (4096 ≤ s.pc.toNat + 1 ∧ fetch s = .error (.fetchRange s.pc.toNat s.pc)) := by
  unfold fetch
  split
  · next h => exact .inr ⟨h, rfl⟩
  · exact .inl ⟨by omega, rfl⟩

theorem keyIndex_cases (b : Byte) :
    (∃ h : b.toNat < 16, keyIndex s b = .ok ⟨b.toNat, h⟩) ∨
    (16 ≤ b.toNat ∧ keyIndex s b = .error (.keyRange b.toNat s.instrAddr)) := by
  unfold keyIndex
  split
  · next h => exact .inl ⟨h, rfl⟩
  · exact .inr ⟨by omega, rfl⟩

/-- The lowest key is down and no lower one is; there is none exactly when no key is down. -/
theorem lowestKey_cases :
    (∃ k, s.lowestKey = some k ∧ s.keyDown k = true ∧ ∀ j, j < k → s.keyDown j = false) ∨
    (s.lowestKey = none ∧ ∀ j, s.keyDown j = false) := by
  unfold State.lowestKey
  cases e : (List.finRange 16).find? fun k => s.keyDown k with
  | none =>
    refine .inr ⟨rfl, fun j => ?_⟩
    simpa using List.find?_eq_none.mp e j (List.mem_finRange j)
  | some k =>
    refine .inl ⟨k, rfl, by simpa using List.find?_some e, fun j hj => ?_⟩
    obtain ⟨_, as, bs, hl, ha⟩ := List.find?_eq_some_iff_append.mp e
    have hs : (List.finRange 16).Pairwise (· < ·) := List.pairwise_lt_finRange 16
    have hm : j ∈ as ++ k :: bs := hl ▸ List.mem_finRange j
    rw [hl, List.pairwise_append, List.pairwise_cons] at hs
    obtain h | h := List.mem_append.mp hm
    · simpa using ha j h
    · obtain h | h := List.mem_cons.mp h
      · omega
      · have := hs.2.1.1 j h; omega

/-! ### Loading a range of registers (R145) -/

theorem rangeReg_toNat {k : Nat} (h : k < 16) : (rangeReg k).toNat = k := by
  simp [rangeReg, Nat.mod_eq_of_lt h]

/-- Everything `loadRegisters` can do on a run of registers: each register of the run holds its byte and nothing else
changed, when the last address is below 4096 (or the run is empty), else the fault of the lowest address that is not. -/
theorem loadRegisters_cases (lo n : Nat) (hn : lo + n ≤ 16) :
    ((n = 0 ∨ s.i.toNat + lo + n ≤ 4096) ∧ ∃ v', loadRegisters s (List.range' lo n) = .ok { s with v := v' } ∧
      ∀ r, State.getV { s with v := v' } r =
        if lo ≤ r.toNat ∧ r.toNat < lo + n then s.byteAt (s.i.toNat + r.toNat) else s.getV r) ∨
    (n ≠ 0 ∧ 4096 < s.i.toNat + lo + n ∧
      loadRegisters s (List.range' lo n) = .error (.readRange (max (s.i.toNat + lo) 4096) s.instrAddr)) := by
  induction n generalizing s lo with
  | zero =>
    exact .inl ⟨.inl rfl, s.v, rfl, fun r => by rw [if_neg (by omega)]⟩
  | succ n ih =>
    simp only [List.range'_succ, loadRegisters, indexed]
    obtain ⟨ha, e⟩ | ⟨ha, e⟩ := memRead_cases s (s.i.toNat + lo)
    · simp only [e]
      obtain ⟨h, v', e2, hv⟩ | ⟨h, h2, e2⟩ := ih (s.setV (rangeReg lo) (s.byteAt (s.i.toNat + lo))) (lo + 1) (by omega)
      · refine .inl ⟨.inr ?_, v', e2, fun r => ?_⟩
        · obtain h | h := h
          · omega
          · simp only [State.setV_i] at h; omega
        · have := hv r
          simp only [State.setV_i, State.setV_byteAt, State.setV_getV] at this
          refine (this : _).trans ?_
          by_cases hr : r.toNat = lo
          · have hr2 : r = rangeReg lo := by
              apply BitVec.eq_of_toNat_eq; rw [rangeReg_toNat (by omega), hr]
            rw [if_neg (by omega), if_pos hr2, if_pos (by omega), hr]
          · have hr2 : r ≠ rangeReg lo := by
              intro e; apply hr; rw [e, rangeReg_toNat (by omega)]
            by_cases h3 : lo + 1 ≤ r.toNat ∧ r.toNat < lo + 1 + n
            · rw [if_pos h3, if_pos (by omega)]
            · rw [if_neg h3, if_neg hr2, if_neg (by omega)]
      · simp only [State.setV_i] at h2 e2
        refine .inr ⟨by omega, by omega, ?_⟩
        rw [e2, show max (s.i.toNat + (lo + 1)) 4096 = max (s.i.toNat + lo) 4096 by omega]
        rfl
    · refine .inr ⟨by omega, by omega, ?_⟩
      simp [e, Nat.max_eq_left ha]

/-! ### Flags and results as numbers (R126 to R132) -/

theorem flagOf_toNat (c : Bool) : (flagOf c).toNat = if c then 1 else 0 := by cases c <;> rfl

theorem sumByte_toNat (a b : Byte) : (sumByte a b).toNat = (a.toNat + b.toNat) % 256 := by simp [sumByte]

theorem differenceByte_toNat (a b : Byte) : (differenceByte a b).toNat = (a.toNat + 256 - b.toNat) % 256 := by
  simp [differenceByte]

theorem shiftRightByte_toNat (a : Byte) : (shiftRightByte a).toNat = a.toNat / 2 := by
  simp [shiftRightByte]; omega

theorem shiftLeftByte_toNat (a : Byte) : (shiftLeftByte a).toNat = a.toNat * 2 % 256 := by simp [shiftLeftByte]

/-! ### Addresses as numbers (R73, R108, R141, R142) -/

theorem zext16_toNat (nnn : Addr) : (zext16 nnn).toNat = nnn.toNat := by
  simp [zext16]; omega

theorem offsetTarget_toNat (nnn : Addr) : (offsetTarget s nnn).toNat = nnn.toNat + (s.getV 0).toNat := by
  simp [offsetTarget, zext16]; omega

theorem indexSum_toNat (x : RegIdx) : (indexSum s x).toNat = (s.i.toNat + (s.getV x).toNat) % 65536 := by
  simp [indexSum, BitVec.toNat_add, Nat.mod_eq_of_lt (show (s.getV x).toNat < 65536 by omega)]

theorem glyphAddress_toNat (x : RegIdx) :
    (glyphAddress s x).toNat = s.params.fontBase.val + 5 * (s.getV x).toNat := by
  have := s.params.fontBase.isLt
  simp [glyphAddress]; omega

end Sys2Proof.Machine
end

