-- ==== Sys2Proof/Laws/Display.lean ====
section
/-! SUPPORT. Drawing (R161 to R164): what drawing a set of pixels once does, and that a sprite row and a sprite do exactly that. -/

namespace Sys2Proof.Machine

/-- From `s` to `t` every pixel of `P` was drawn on exactly once: each is toggled, VF is set if one of them was on and is
otherwise as before, and nothing else changed (R161, R163, R164). -/
structure Drawn (P : Fin 64 → Fin 32 → Prop) (s t : State) : Prop where
  rest : t = { s with v := t.v, disp := t.disp }
  regs : ∀ q, q ≠ flagReg → t.getV q = s.getV q
  flag_on : (∃ c r, P c r ∧ s.pixel c r = true) → t.getV flagReg = 1
  flag_off : (¬ ∃ c r, P c r ∧ s.pixel c r = true) → t.getV flagReg = s.getV flagReg
  pixels_in : ∀ c r, P c r → t.pixel c r = !s.pixel c r
  pixels_out : ∀ c r, ¬ P c r → t.pixel c r = s.pixel c r

theorem Drawn.byteAt {P : Fin 64 → Fin 32 → Prop} {s t : State} (h : Drawn P s t) (a : Nat) : t.byteAt a = s.byteAt a := by
  rw [h.rest]; rfl

theorem Drawn.i {P : Fin 64 → Fin 32 → Prop} {s t : State} (h : Drawn P s t) : t.i = s.i := by rw [h.rest]

theorem Drawn.instrAddr {P : Fin 64 → Fin 32 → Prop} {s t : State} (h : Drawn P s t) : t.instrAddr = s.instrAddr := by
  rw [h.rest]; rfl

theorem Drawn.none {P : Fin 64 → Fin 32 → Prop} (s : State) (h : ∀ c r, ¬ P c r) : Drawn P s s :=
  ⟨rfl, fun _ _ => rfl, fun ⟨c, r, hp, _⟩ => absurd hp (h c r), fun _ => rfl, fun c r hp => absurd hp (h c r),
    fun _ _ _ => rfl⟩

/-- Drawing two disjoint sets one after the other draws their union. -/
theorem Drawn.trans {P Q R : Fin 64 → Fin 32 → Prop} {s t u : State} (h : Drawn P s t) (k : Drawn Q t u)
    (disjoint : ∀ c r, P c r → ¬ Q c r) (union : ∀ c r, R c r ↔ P c r ∨ Q c r) : Drawn R s u where
  rest := by rw [k.rest, h.rest]
  regs q hq := by rw [k.regs q hq, h.regs q hq]
  flag_on := by
    rintro ⟨c, r, hr, on⟩
    by_cases hq : ∃ c r, Q c r ∧ t.pixel c r = true
    · exact k.flag_on hq
    · rw [k.flag_off hq]
      obtain hp | hq2 := (union c r).mp hr
      · exact h.flag_on ⟨c, r, hp, on⟩
      · refine absurd ⟨c, r, hq2, ?_⟩ hq
        rw [h.pixels_out c r fun hp => disjoint c r hp hq2, on]
  flag_off hn := by
    rw [k.flag_off, h.flag_off]
    · rintro ⟨c, r, hp, on⟩
      exact hn ⟨c, r, (union c r).mpr (.inl hp), on⟩
    · rintro ⟨c, r, hq, on⟩
      rw [h.pixels_out c r fun hp => disjoint c r hp hq] at on
      exact hn ⟨c, r, (union c r).mpr (.inr hq), on⟩
  pixels_in c r hr := by
    obtain hp | hq := (union c r).mp hr
    · rw [k.pixels_out c r (disjoint c r hp), h.pixels_in c r hp]
    · rw [k.pixels_in c r hq, h.pixels_out c r fun hp => disjoint c r hp hq]
  pixels_out c r hr := by
    rw [k.pixels_out c r fun hq => hr ((union c r).mpr (.inr hq)), h.pixels_out c r fun hp => hr ((union c r).mpr (.inl hp))]

/-- One sprite bit draws its pixel if it is set. -/
theorem drawBit_drawn (sx sy row col : Nat) (b : Byte) (s : State) :
    Drawn (fun c r => spriteBit b col = true ∧ c.val = (sx + col) % 64 ∧ r.val = (sy + row) % 32) s
      (drawBit sx sy row b s col) := by
  unfold drawBit
  split
  · next hb =>
    have key : ∀ (c : Fin 64) (r : Fin 32),
        (c.val = (sx + col) % 64 ∧ r.val = (sy + row) % 32) ↔ (c = wrapColumn sx col ∧ r = wrapRow sy row) := by
      intro c r
      simp only [Fin.ext_iff, wrapColumn, wrapRow]
    simp only [hb, true_and, key]
    refine ⟨?_, ?_, ?_, ?_, ?_, ?_⟩
    · split <;> rfl
    · intro q hq
      show State.getV (ite _ _ _) q = _
      split
      · exact State.setV_getV_other _ _ _ _ hq
      · rfl
    · rintro ⟨c, r, ⟨rfl, rfl⟩, on⟩
      show State.getV (ite _ _ _) flagReg = _
      simp [on]
    · intro hn
      show State.getV (ite _ _ _) flagReg = _
      rw [if_neg fun on => hn ⟨_, _, ⟨rfl, rfl⟩, on⟩]
    · rintro c r ⟨rfl, rfl⟩
      simp [State.setPixel_pixel]
    · intro c r hn
      rw [State.setPixel_pixel, if_neg hn]
      split
      · exact State.setV_pixel _ _ _ _ _
      · rfl
  · next hb => exact Drawn.none s fun c r h => hb h.1

/-- A run of at most 8 columns of a sprite row. -/
theorem drawColumns_drawn (sx sy row : Nat) (b : Byte) (lo n : Nat) (hn : lo + n ≤ 8) (s : State) :
    Drawn (fun c r => ∃ col, lo ≤ col ∧ col < lo + n ∧ spriteBit b col = true ∧ c.val = (sx + col) % 64 ∧
      r.val = (sy + row) % 32) s ((List.range' lo n).foldl (drawBit sx sy row b) s) := by
  induction n generalizing s lo with
  | zero => exact Drawn.none s fun c r ⟨col, h, h2, _⟩ => by omega
  | succ n ih =>
    refine Drawn.trans (drawBit_drawn sx sy row lo b s) (ih (lo + 1) (by omega) _) ?_ ?_
    · rintro c r ⟨_, hc, _⟩ ⟨col, h1, h2, _, hc2, _⟩
      omega
    · intro c r
      constructor
      · rintro ⟨col, h1, h2, h⟩
        by_cases e : col = lo
        · subst e; exact .inl h
        · exact .inr ⟨col, by omega, by omega, h⟩
      · rintro (h | ⟨col, h1, h2, h⟩)
        · exact ⟨lo, by omega, by omega, h⟩
        · exact ⟨col, by omega, by omega, h⟩

/-- A sprite row draws the pixels of its set bits (R161, R164). -/
theorem drawRow_drawn (sx sy row : Nat) (b : Byte) (s : State) :
    Drawn (fun c r => ∃ col, col < 8 ∧ spriteBit b col = true ∧ c.val = (sx + col) % 64 ∧ r.val = (sy + row) % 32) s
      (drawRow sx sy row b s) := by
  have h := drawColumns_drawn sx sy row b 0 8 (by omega) s
  simpa only [Nat.zero_le, true_and, Nat.zero_add, drawRow, List.range_eq_range'] using h

/-- Everything `drawRows` can do on a run of at most 32 rows: draw the sprite's pixels, when the last address is below
4096 (or the run is empty), else the fault of the lowest address that is not. -/
theorem drawRows_cases (sx sy lo n : Nat) (hn : lo + n ≤ 32) (s : State) :
    ((n = 0 ∨ s.i.toNat + lo + n ≤ 4096) ∧ ∃ t, drawRows sx sy s (List.range' lo n) = .ok t ∧
      Drawn (fun c r => ∃ row col, (lo ≤ row ∧ row < lo + n) ∧ col < 8 ∧
        spriteBit (s.byteAt (s.i.toNat + row)) col = true ∧ c.val = (sx + col) % 64 ∧ r.val = (sy + row) % 32) s t) ∨
    (n ≠ 0 ∧ 4096 < s.i.toNat + lo + n ∧
      drawRows sx sy s (List.range' lo n) = .error (.readRange (max (s.i.toNat + lo) 4096) s.instrAddr)) := by
  induction n generalizing s lo with
  | zero => exact .inl ⟨.inl rfl, s, rfl, Drawn.none s fun c r ⟨row, _, h, _⟩ => by omega⟩
  | succ n ih =>
    simp only [List.range'_succ, drawRows, indexed]
    obtain ⟨ha, e⟩ | ⟨ha, e⟩ := memRead_cases s (s.i.toNat + lo)
    · simp only [e]
      have d := drawRow_drawn sx sy lo (s.byteAt (s.i.toNat + lo)) s
      obtain ⟨h, t, e2, k⟩ | ⟨h, h2, e2⟩ := ih (lo + 1) (by omega) (drawRow sx sy lo (s.byteAt (s.i.toNat + lo)) s)
      · simp only [d.i, d.byteAt] at h k
        refine .inl ⟨.inr (by omega), t, e2, d.trans k ?_ ?_⟩
        · rintro c r ⟨col, _, _, _, hr⟩ ⟨row, col2, h1, _, _, _, hr2⟩
          omega
        · intro c r
          constructor
          · rintro ⟨row, col, h1, hp⟩
            by_cases e : row = lo
            · subst e; exact .inl ⟨col, hp⟩
            · exact .inr ⟨row, col, by omega, hp⟩
          · rintro (⟨col, hp⟩ | ⟨row, col, h1, hp⟩)
            · exact ⟨lo, col, by omega, hp⟩
            · exact ⟨row, col, by omega, hp⟩
      · simp only [d.i, d.instrAddr] at h2 e2
        refine .inr ⟨by omega, by omega, ?_⟩
        rw [e2, show max (s.i.toNat + (lo + 1)) 4096 = max (s.i.toNat + lo) 4096 by omega]
    · refine .inr ⟨by omega, by omega, ?_⟩
      simp [e, Nat.max_eq_left ha]

end Sys2Proof.Machine
end

