-- ==== Sys2Proof/Laws/Exec.lean ====
section
/-! SUPPORT. What `exec` can do, said once: the inversion lemma the frame statements and the invariants go through. -/

namespace Sys2Proof.Machine

/-- A storing instruction that goes on has written its bytes at `I` upward and nothing else (R52, R58). -/
theorem toOutcome_storeBytes_next (s t : State) (bs : List Byte) (h : toOutcome (storeBytes s (indexed s 0) bs) = .next t) :
    t = { s with mem := Memory.writeBytes s.params s.mem (indexed s 0) bs } ∧ (bs = [] ∨ indexed s 0 + bs.length ≤ 4096) := by
  obtain ⟨h1, e⟩ | ⟨_, _, e⟩ := storeBytes_cases s (indexed s 0) bs
  · rw [e] at h; simp [toOutcome] at h; exact ⟨h.symm, h1⟩
  · rw [e] at h; simp [toOutcome] at h

/-- LD Vx,[I] that goes on writes `V[0]` .. `V[x]` only (R145). -/
theorem execLdVxMem_frame (s t : State) (x : RegIdx) (h : exec (.ldVxMem x) s = .next t) :
    t = { s with v := t.v } ∧ (∀ q : RegIdx, x.toNat < q.toNat → t.getV q = s.getV q) := by
  have hx := x.isLt
  obtain ⟨_, v', e, hv⟩ | ⟨_, _, e⟩ := loadRegisters_cases s 0 (x.toNat+1) (by omega)
  · simp only [exec, execLdVxMem, toOutcome, List.range_eq_range', e, Host.Outcome.next.injEq] at h
    subst h
    exact ⟨rfl, fun q hq => by rw [hv, if_neg (by omega)]⟩
  · simp only [exec, execLdVxMem, toOutcome, List.range_eq_range', e] at h; cases h

/-- DRW that goes on writes the display and VF only (R161). -/
theorem execDrw_frame (s t : State) (x y : RegIdx) (n : BitVec 4) (h : exec (.drw x y n) s = .next t) :
    t = { s with v := t.v, disp := t.disp } ∧ (∀ q : RegIdx, q ≠ flagReg → t.getV q = s.getV q) := by
  have hx := n.isLt
  obtain ⟨_, u, e, d⟩ | ⟨_, _, e⟩ := drawRows_cases (s.getV x).toNat (s.getV y).toNat 0 n.toNat (by omega) (s.setV flagReg 0)
  · simp only [exec, execDrw, toOutcome, List.range_eq_range', e, Host.Outcome.next.injEq] at h
    subst h
    refine ⟨by rw [d.rest]; rfl, fun q hq => by rw [d.regs q hq]; exact State.setV_getV_other _ _ _ _ hq⟩
  · simp only [exec, execDrw, toOutcome, List.range_eq_range', e] at h; cases h

/-- What an instruction that goes on may have written, instruction by instruction: every field it does not name is
as on entry. -/
def execWrites (i : Instr) (s t : State) : Prop :=
  match i with
  | .cls => t = { s with disp := t.disp }
  | .drw _ _ _ => t = { s with v := t.v, disp := t.disp }
  | .ret => t = { s with pc := t.pc, sp := t.sp }
  | .call _ => t = { s with pc := t.pc, sp := t.sp, stack := t.stack } ∧ ∀ (j : Nat) (h : j < 16), j < s.sp.val → t.stack[j]'h = s.stack[j]'h
  | .jp _ | .jpV0 _ | .seImm _ _ | .sneImm _ _ | .seReg _ _ | .sneReg _ _ | .skp _ | .sknp _ => t = { s with pc := t.pc }
  | .ldImm _ _ | .addImm _ _ | .ldReg _ _ | .orReg _ _ | .andReg _ _ | .xorReg _ _ | .addReg _ _ | .sub _ _
  | .shr _ _ | .subn _ _ | .shl _ _ | .ldVxDt _ | .ldVxMem _ => t = { s with v := t.v }
  | .rnd _ _ => t = { s with v := t.v, draws := t.draws }
  | .ldI _ | .addI _ | .ldF _ => t = { s with i := t.i }
  | .ldB x => t = { s with mem := Memory.writeBytes s.params s.mem (indexed s 0) (bcdDigits (s.getV x)) } ∧ indexed s 0 + 3 ≤ 4096
  | .ldMemVx x => t = { s with mem := Memory.writeBytes s.params s.mem (indexed s 0) (registersThrough s x) } ∧ indexed s 0 + (x.toNat + 1) ≤ 4096
  | .ldVxK _ => (t = { s with v := t.v, kw := t.kw } ∧ t.kw = .idle) ∨ (t = { s with pc := s.pc - 2, kw := t.kw })
  | .ldDtVx _ => t = { s with dt := t.dt }
  | .ldStVx _ => t = { s with st := t.st }

/-- The one inversion lemma of `exec`: a next state differs from the entry state in the named fields only. The frame
statements follow from it by cases. -/
theorem exec_next_writes (i : Instr) (s t : State) (h : exec i s = .next t) : execWrites i s t := by
  cases i
  case drw x y n => exact (execDrw_frame s t x y n h).1
  case ldVxMem x => exact (execLdVxMem_frame s t x h).1
  case ldB x =>
    obtain ⟨a, b⟩ := toOutcome_storeBytes_next s t _ h
    exact ⟨a, by simpa [bcdDigits] using b⟩
  case ldMemVx x =>
    obtain ⟨a, b⟩ := toOutcome_storeBytes_next s t _ h
    refine ⟨a, ?_⟩
    obtain b | b := b
    · have := congrArg List.length b
      simp only [registersThrough, List.length_map, List.length_range, List.length_nil] at this
      omega
    · simpa only [registersThrough, List.length_map, List.length_range] using b
  case ret =>
    obtain ⟨_, e⟩ | ⟨_, e⟩ := pop_cases s <;> simp only [exec, execRet, e] at h <;> cases h
    rfl
  case call =>
    obtain ⟨_, e⟩ | ⟨_, e⟩ := push_cases s s.pc <;> simp only [exec, execCall, e] at h <;> cases h
    refine ⟨rfl, fun j hj hl => ?_⟩
    simp [State.jump, Vector.getElem_set]; intro hh; omega
  case skp x =>
    obtain ⟨_, e⟩ | ⟨_, e⟩ := keyIndex_cases s (s.getV x) <;> simp only [exec, execSkp, e] at h <;> cases h
    show _ = _
    unfold State.skipIf; split <;> rfl
  case sknp x =>
    obtain ⟨_, e⟩ | ⟨_, e⟩ := keyIndex_cases s (s.getV x) <;> simp only [exec, execSknp, e] at h <;> cases h
    show _ = _
    unfold State.skipIf; split <;> rfl
  case ldVxK x =>
    simp only [exec, execLdVxK] at h
    cases hk : s.kw with
    | idle =>
      simp only [hk] at h
      cases hl : s.lowestKey with
      | none => simp only [hl] at h; cases h; exact .inr rfl
      | some k => simp only [hl] at h; cases h; exact .inr rfl
    | awaitingRelease k =>
      simp only [hk] at h
      split at h
      · cases h; exact .inr rfl
      · cases h; exact .inl ⟨rfl, rfl⟩
  all_goals
    cases h
    show _ = _
    first | rfl | (unfold State.skipIf; split <;> rfl)

/-- No instruction writes the keys, the parameters or the fault mark (R29, R35). -/
theorem exec_keeps (i : Instr) (s t : State) (h : exec i s = .next t) : t.key = s.key ∧ t.params = s.params ∧ t.faulted = s.faulted := by
  have hs := exec_next_writes i s t h
  cases i
  case ldVxK => obtain ⟨e, _⟩ | e := hs <;> rw [e] <;> exact ⟨rfl, rfl, rfl⟩
  all_goals
    simp only [execWrites] at hs
    first | (rw [hs]; exact ⟨rfl, rfl, rfl⟩) | (rw [hs.1]; exact ⟨rfl, rfl, rfl⟩)

/-- No instruction breaks the canonical form of memory. -/
theorem exec_mem_wf (s t : State) (i : Instr) (w : Memory.wf s.params s.mem = true) (h : exec i s = .next t) :
    Memory.wf t.params t.mem = true := by
  have hs := exec_next_writes i s t h
  cases i
  case ldVxK => obtain ⟨e, _⟩ | e := hs <;> (rw [e]; exact w)
  case ldB => rw [hs.1]; exact Memory.writeBytes_wf _ _ _ _ (by simpa [bcdDigits] using hs.2) w
  case ldMemVx => rw [hs.1]; exact Memory.writeBytes_wf _ _ _ _ (by simpa only [registersThrough, List.length_map, List.length_range] using hs.2) w
  all_goals
    simp only [execWrites] at hs
    first | (rw [hs]; exact w) | (rw [hs.1]; exact w)

end Sys2Proof.Machine
end

