-- ==== Sys2Proof/Laws/PerInstr.lean ====
section
/-! SUPPORT. Per instruction: the encoder, written from the formats of R74, gives a word of the instruction's own row of R75. -/

namespace Sys2Proof.Laws.EncodeRow

/-- The word of `i` belongs to a row of R75's table whose tag is that of `i`. -/
def Statement (i : Instr) : Prop := ∃ r ∈ opcodeTable, r.tag = i.opcode ∧ r.matches (encode i) = true

/-- A word whose bits under the row's mask are the row's pattern belongs to the row. -/
theorem of_row {i : Instr} (r : Row) (hr : r ∈ opcodeTable) (ht : r.tag = i.opcode) (h : encode i &&& r.mask = r.pattern) :
    Statement i := ⟨r, hr, ht, by simp [Row.matches, h]⟩

theorem cls : Statement .cls :=
  of_row ⟨.cls, 0x00E0, 0xFFFF⟩ (by decide) rfl rfl

theorem ret : Statement .ret :=
  of_row ⟨.ret, 0x00EE, 0xFFFF⟩ (by decide) rfl rfl

theorem jp (nnn : Addr) : Statement (.jp nnn) :=
  of_row ⟨.jp, 0x1000, 0xF000⟩ (by decide) rfl (formatA_and 0x1 nnn)

theorem call (nnn : Addr) : Statement (.call nnn) :=
  of_row ⟨.call, 0x2000, 0xF000⟩ (by decide) rfl (formatA_and 0x2 nnn)

theorem seImm (x : RegIdx) (kk : Byte) : Statement (.seImm x kk) :=
  of_row ⟨.seImm, 0x3000, 0xF000⟩ (by decide) rfl (formatXK_and 0x3 x kk)

theorem sneImm (x : RegIdx) (kk : Byte) : Statement (.sneImm x kk) :=
  of_row ⟨.sneImm, 0x4000, 0xF000⟩ (by decide) rfl (formatXK_and 0x4 x kk)

theorem seReg (x y : RegIdx) : Statement (.seReg x y) :=
  of_row ⟨.seReg, 0x5000, 0xF00F⟩ (by decide) rfl (formatXYF_and 0x5 x y 0x0)

theorem ldImm (x : RegIdx) (kk : Byte) : Statement (.ldImm x kk) :=
  of_row ⟨.ldImm, 0x6000, 0xF000⟩ (by decide) rfl (formatXK_and 0x6 x kk)

theorem addImm (x : RegIdx) (kk : Byte) : Statement (.addImm x kk) :=
  of_row ⟨.addImm, 0x7000, 0xF000⟩ (by decide) rfl (formatXK_and 0x7 x kk)

theorem ldReg (x y : RegIdx) : Statement (.ldReg x y) :=
  of_row ⟨.ldReg, 0x8000, 0xF00F⟩ (by decide) rfl (formatXYF_and 0x8 x y 0x0)

theorem orReg (x y : RegIdx) : Statement (.orReg x y) :=
  of_row ⟨.orReg, 0x8001, 0xF00F⟩ (by decide) rfl (formatXYF_and 0x8 x y 0x1)

theorem andReg (x y : RegIdx) : Statement (.andReg x y) :=
  of_row ⟨.andReg, 0x8002, 0xF00F⟩ (by decide) rfl (formatXYF_and 0x8 x y 0x2)

theorem xorReg (x y : RegIdx) : Statement (.xorReg x y) :=
  of_row ⟨.xorReg, 0x8003, 0xF00F⟩ (by decide) rfl (formatXYF_and 0x8 x y 0x3)

theorem addReg (x y : RegIdx) : Statement (.addReg x y) :=
  of_row ⟨.addReg, 0x8004, 0xF00F⟩ (by decide) rfl (formatXYF_and 0x8 x y 0x4)

theorem sub (x y : RegIdx) : Statement (.sub x y) :=
  of_row ⟨.sub, 0x8005, 0xF00F⟩ (by decide) rfl (formatXYF_and 0x8 x y 0x5)

theorem shr (x y : RegIdx) : Statement (.shr x y) :=
  of_row ⟨.shr, 0x8006, 0xF00F⟩ (by decide) rfl (formatXYF_and 0x8 x y 0x6)

theorem subn (x y : RegIdx) : Statement (.subn x y) :=
  of_row ⟨.subn, 0x8007, 0xF00F⟩ (by decide) rfl (formatXYF_and 0x8 x y 0x7)

theorem shl (x y : RegIdx) : Statement (.shl x y) :=
  of_row ⟨.shl, 0x800E, 0xF00F⟩ (by decide) rfl (formatXYF_and 0x8 x y 0xE)

theorem sneReg (x y : RegIdx) : Statement (.sneReg x y) :=
  of_row ⟨.sneReg, 0x9000, 0xF00F⟩ (by decide) rfl (formatXYF_and 0x9 x y 0x0)

theorem ldI (nnn : Addr) : Statement (.ldI nnn) :=
  of_row ⟨.ldI, 0xA000, 0xF000⟩ (by decide) rfl (formatA_and 0xA nnn)

theorem jpV0 (nnn : Addr) : Statement (.jpV0 nnn) :=
  of_row ⟨.jpV0, 0xB000, 0xF000⟩ (by decide) rfl (formatA_and 0xB nnn)

theorem rnd (x : RegIdx) (kk : Byte) : Statement (.rnd x kk) :=
  of_row ⟨.rnd, 0xC000, 0xF000⟩ (by decide) rfl (formatXK_and 0xC x kk)

theorem drw (x y : RegIdx) (n : BitVec 4) : Statement (.drw x y n) :=
  of_row ⟨.drw, 0xD000, 0xF000⟩ (by decide) rfl (formatXYN_and 0xD x y n)

theorem skp (x : RegIdx) : Statement (.skp x) :=
  of_row ⟨.skp, 0xE09E, 0xF0FF⟩ (by decide) rfl (formatXF_and 0xE x 0x9E)

theorem sknp (x : RegIdx) : Statement (.sknp x) :=
  of_row ⟨.sknp, 0xE0A1, 0xF0FF⟩ (by decide) rfl (formatXF_and 0xE x 0xA1)

theorem ldVxDt (x : RegIdx) : Statement (.ldVxDt x) :=
  of_row ⟨.ldVxDt, 0xF007, 0xF0FF⟩ (by decide) rfl (formatXF_and 0xF x 0x07)

theorem ldVxK (x : RegIdx) : Statement (.ldVxK x) :=
  of_row ⟨.ldVxK, 0xF00A, 0xF0FF⟩ (by decide) rfl (formatXF_and 0xF x 0x0A)

theorem ldDtVx (x : RegIdx) : Statement (.ldDtVx x) :=
  of_row ⟨.ldDtVx, 0xF015, 0xF0FF⟩ (by decide) rfl (formatXF_and 0xF x 0x15)

theorem ldStVx (x : RegIdx) : Statement (.ldStVx x) :=
  of_row ⟨.ldStVx, 0xF018, 0xF0FF⟩ (by decide) rfl (formatXF_and 0xF x 0x18)

theorem addI (x : RegIdx) : Statement (.addI x) :=
  of_row ⟨.addI, 0xF01E, 0xF0FF⟩ (by decide) rfl (formatXF_and 0xF x 0x1E)

theorem ldF (x : RegIdx) : Statement (.ldF x) :=
  of_row ⟨.ldF, 0xF029, 0xF0FF⟩ (by decide) rfl (formatXF_and 0xF x 0x29)

theorem ldB (x : RegIdx) : Statement (.ldB x) :=
  of_row ⟨.ldB, 0xF033, 0xF0FF⟩ (by decide) rfl (formatXF_and 0xF x 0x33)

theorem ldMemVx (x : RegIdx) : Statement (.ldMemVx x) :=
  of_row ⟨.ldMemVx, 0xF055, 0xF0FF⟩ (by decide) rfl (formatXF_and 0xF x 0x55)

theorem ldVxMem (x : RegIdx) : Statement (.ldVxMem x) :=
  of_row ⟨.ldVxMem, 0xF065, 0xF0FF⟩ (by decide) rfl (formatXF_and 0xF x 0x65)

end Sys2Proof.Laws.EncodeRow
end

