-- ==== Sys2Proof/Laws/Step.lean ====
section
/-! SUPPORT. What one step can do, and that creation, loading and placing a word keep memory's canonical form. -/

namespace Sys2Proof.Machine

/-- Everything a step can do (R71): stay stopped, fault at the fetch, execute an instruction on the advanced state, or
only advance on an UNKNOWN word. -/
theorem step_cases (s : State) :
    (∃ f, s.faulted = some f ∧ step s = .fault f) ∨
    (s.faulted = none ∧ 4096 ≤ s.pc.toNat + 1 ∧ step s = .fault (.fetchRange s.pc.toNat s.pc)) ∨
    (s.faulted = none ∧ s.pc.toNat + 1 < 4096 ∧
      ∃ i, decode (wordOfBytes (s.byteAt s.pc.toNat) (s.byteAt (s.pc.toNat + 1))) = .ok i ∧ step s = exec i s.advance) ∨
    (s.faulted = none ∧ s.pc.toNat + 1 < 4096 ∧
      (∃ r, decode (wordOfBytes (s.byteAt s.pc.toNat) (s.byteAt (s.pc.toNat + 1))) = .error r) ∧
      step s = .next s.advance) := by
  unfold step
  cases hf : s.faulted with
  | some f => exact .inl ⟨f, rfl, rfl⟩
  | none =>
    refine .inr ?_
    obtain ⟨hp, e⟩ | ⟨hp, e⟩ := fetch_cases s
    · refine .inr ?_
      simp only [e]
      obtain ⟨i, _, d⟩ | ⟨_, d⟩ := decode_cases (wordOfBytes (s.byteAt s.pc.toNat) (s.byteAt (s.pc.toNat + 1)))
      · exact .inl ⟨trivial, hp, i, d, by simp only [d]⟩
      · exact .inr ⟨trivial, hp, ⟨_, d⟩, by simp only [d, execUnknown]⟩
    · exact .inl ⟨rfl, hp, by simp only [e]⟩

/-- The font's region is inside memory, so installing it keeps the canonical form (R231). -/
theorem installFont_wf (p : Params) (m : Memory) (w : Memory.wf p m = true) : Memory.wf p (installFont p m) = true := by
  refine Memory.writeBytes_wf p m _ _ ?_ w
  have := p.fontBase.isLt
  simp
  omega

theorem create_mem_wf (p : Params) (d : Draw) : Memory.wf (State.create p d).params (State.create p d).mem = true :=
  installFont_wf p _ (Memory.ofBytes_wf p d.mem)

theorem reset_mem_wf : Memory.wf State.reset.params State.reset.mem = true := rfl

/-- A Load keeps the canonical form (R236). -/
theorem load_mem_wf (buf : List Byte) (s : State) (w : Memory.wf s.params s.mem = true) :
    Memory.wf (load buf s).2.params (load buf s).2.mem = true := by
  unfold load
  split
  · next h =>
    have h : buf.length ≤ 3584 := of_decide_eq_true h
    exact Memory.writeBytes_wf _ _ _ _ (by simp only [loadOffset]; omega) w
  · exact w

/-- What a faulting step leaves is free and still canonical (R201). -/
theorem afterFault_mem_wf (s : State) (f : Fault) :
    Memory.wf (s.afterFault f).params (s.afterFault f).mem = true := Memory.ofBytes_wf _ _

/-- A store keeps the canonical form (R52, R58). -/
theorem storeBytes_mem_wf (s t : State) (a : Nat) (bs : List Byte) (w : Memory.wf s.params s.mem = true)
    (h : storeBytes s a bs = .ok t) : Memory.wf t.params t.mem = true := by
  obtain ⟨hb, e⟩ | ⟨_, _, e⟩ := storeBytes_cases s a bs
  · rw [e] at h
    cases h
    obtain rfl | hb := hb
    · exact w
    · exact Memory.writeBytes_wf _ _ _ _ hb w
  · rw [e] at h
    cases h

/-- Everything a Step transaction can do to a machine (R71, R201): go on as the step does, or report its fault, marked
on an unfaulted machine and with nothing changed on a faulted one. -/
theorem afterStep_cases (s : State) :
    (∃ t, step s = .next t ∧ afterStep s = .next (t, none)) ∨
    (∃ f, step s = .fault f ∧ s.faulted = none ∧ afterStep s = .next (s.afterFault f, some f)) ∨
    (∃ f, s.faulted = some f ∧ step s = .fault f ∧ afterStep s = .next (s, some f)) ∨
    (∃ r, step s = .refused r ∧ afterStep s = .refused r) := by
  cases hf : s.faulted with
  | some f =>
    have h : step s = .fault f := by simp only [step, hf]
    exact .inr (.inr (.inl ⟨f, rfl, h, by simp [afterStep, h, hf]⟩))
  | none =>
    cases h : step s with
    | next t => exact .inl ⟨t, rfl, by simp only [afterStep, h]⟩
    | fault f => exact .inr (.inl ⟨f, rfl, rfl, by simp [afterStep, h, hf]⟩)
    | refused r => exact .inr (.inr (.inr ⟨r, rfl, by simp only [afterStep, h]⟩))

/-- Everything an accepted call can do to a session (R211): which call it was, what it asks of the phase, and the session
it leaves. -/
theorem Session.transact_next {x y : Session} {a : Transaction} {r : Response} (h : x.transact a = .next (y, r)) :
    (∃ buf, a = .load buf ∧ x.phase = .created ∧ y = ⟨(Machine.load buf x.machine).2, .loaded⟩ ∧
      r = .loaded (Machine.load buf x.machine).1) ∨
    (∃ k, a = .setKeys k ∧ y = ⟨Machine.setKeys k x.machine, x.phase⟩ ∧ r = .done) ∨
    (∃ f, a = .step ∧ x.phase ≠ .created ∧ y.phase = .stepped ∧ afterStep x.machine = .next (y.machine, f) ∧
      r = f.elim .done .stopped) ∨
    (a = .tick ∧ y = ⟨Machine.tick x.machine, x.phase⟩ ∧ r = .done) ∨
    (a = .readDisplay ∧ y = x ∧ r = .display (Machine.readDisplay x.machine)) ∨
    (a = .soundOn ∧ y = x ∧ r = .sound (Machine.soundOn x.machine)) := by
  cases a with
  | load buf =>
    cases hp : x.phase <;> simp only [Session.transact, hp] at h <;> cases h
    exact .inl ⟨buf, rfl, rfl, rfl, rfl⟩
  | setKeys k => cases h; exact .inr (.inl ⟨k, rfl, rfl, rfl⟩)
  | step =>
    have hs : x.phase ≠ .created ∧ stepTransaction x.machine = .next (y, r) := by
      cases hp : x.phase <;> simp only [Session.transact, hp] at h
      · cases h
      · exact ⟨by simp, h⟩
      · exact ⟨by simp, h⟩
    obtain ⟨hp, h⟩ := hs
    unfold stepTransaction at h
    split at h
    · next m e => cases h; exact .inr (.inr (.inl ⟨none, rfl, hp, rfl, e, rfl⟩))
    · next m f e => cases h; exact .inr (.inr (.inl ⟨some f, rfl, hp, rfl, e, rfl⟩))
    · cases h
    · cases h
  | tick => cases h; exact .inr (.inr (.inr (.inl ⟨rfl, rfl, rfl⟩)))
  | readDisplay => cases h; exact .inr (.inr (.inr (.inr (.inl ⟨rfl, rfl, rfl⟩))))
  | soundOn => cases h; exact .inr (.inr (.inr (.inr (.inr ⟨rfl, rfl, rfl⟩))))

/-- A schedule that a session runs through, call by call (R211). -/
theorem Session.run_cons_next {a : Transaction} {rest : List Transaction} {x y : Session}
    (h : Session.run (a :: rest) x = .next y) :
    ∃ z r, x.transact a = .next (z, r) ∧ Session.run rest z = .next y := by
  unfold Session.run at h
  split at h
  · next z r e => exact ⟨z, r, e, h⟩
  · cases h
  · cases h

/-- Placing a word where the next step fetches keeps the canonical form. -/
theorem withFetchWord_mem_wf (s : State) (nbits n : Nat) (w : Memory.wf s.params s.mem = true) :
    Memory.wf (s.withFetchWord nbits n).params (s.withFetchWord nbits n).mem = true := by
  unfold State.withFetchWord
  simp only
  split
  · exact w
  · refine Memory.writeBytes_wf _ _ _ _ ?_ w
    simp only [List.length_cons, List.length_nil]
    omega

end Sys2Proof.Machine
end

