-- ==== Sys2Proof/Tests/Slice0.lean ====
section
/-! SUPPORT. Tests: the well-formedness smoke test, words written out from R74 and R75, one-step vectors of
95_test_vectors.md (their ids stand in the names: `stp1` is T-STP-1), and the witnesses of the statements' hypotheses. -/

namespace Sys2Proof.Tests

open Sys2Proof.Machine

/-! ## Helpers -/

/-- The machine right after reset with one word at 0x200, where the first step fetches. -/
def machine (w : Nat) : State := State.reset.withFetchWord 16 w

/-- Bytes put into memory. -/
def poke (s : State) (a : Nat) (bs : List Byte) : State := { s with mem := Memory.writeBytes s.params s.mem a bs }

/-- A machine at another `PC`, with one word there. -/
def machineAt (pc : Word) (w : Nat) : State := { State.reset with pc := pc }.withFetchWord 16 w

/-- The outcome is a next state that passes a check. -/
def goes (o : Host.Outcome State Fault Refusal) (p : State → Bool) : Bool :=
  match o with
  | .next t => p t
  | .fault _ => false
  | .refused _ => false

/-- The outcome is this fault. -/
def faults (o : Host.Outcome State Fault Refusal) (f : Fault) : Bool :=
  match o with
  | .next _ => false
  | .fault g => g == f
  | .refused _ => false

/-- The keys of a list are down, the others up. -/
def keysDown (l : List Nat) (s : State) : State := { s with key := Vector.ofFn fun k => l.contains k.val }

/-! ## Well-formedness (R22, R73, R236)

R22: no instruction of the syntax can be ill-formed, since every operand type has exactly its field's width; the one
check that can refuse is that of a program image (S-P7). -/

theorem test_wellFormed_every_instruction (i : Instr) : i.wellFormed = true := by
  cases i <;> simp [Instr.wellFormed] <;> omega

theorem test_image_too_long_refused (b : Byte) : wellFormedImage (List.replicate 3585 b) = false := by
  rw [wellFormedImage, List.length_replicate]; decide

theorem test_image_full_accepted (b : Byte) : wellFormedImage (List.replicate 3584 b) = true := by
  rw [wellFormedImage, List.length_replicate]; decide

/-! ## Decoding: the words of R74's layouts, bit by bit -/

theorem test_decode_cls : decode 0b0000000011100000 = .ok .cls := by decide
theorem test_decode_ret : decode 0b0000000011101110 = .ok .ret := by decide
theorem test_decode_jp : decode 0b0001001000110100 = .ok (.jp 0x234) := by decide
theorem test_decode_call : decode 0b0010001100000000 = .ok (.call 0x300) := by decide
theorem test_decode_seImm : decode 0b0011001100101010 = .ok (.seImm 3 0x2A) := by decide
theorem test_decode_sneImm : decode 0b0100001100101010 = .ok (.sneImm 3 0x2A) := by decide
theorem test_decode_seReg : decode 0b0101000100100000 = .ok (.seReg 1 2) := by decide
theorem test_decode_ldImm : decode 0b0110101000001111 = .ok (.ldImm 0xA 0x0F) := by decide
theorem test_decode_addImm : decode 0b0111101000000001 = .ok (.addImm 0xA 0x01) := by decide
theorem test_decode_ldReg : decode 0b1000000100100000 = .ok (.ldReg 1 2) := by decide
theorem test_decode_orReg : decode 0b1000000100100001 = .ok (.orReg 1 2) := by decide
theorem test_decode_andReg : decode 0b1000000100100010 = .ok (.andReg 1 2) := by decide
theorem test_decode_xorReg : decode 0b1000000100100011 = .ok (.xorReg 1 2) := by decide
theorem test_decode_addReg : decode 0b1000101010110100 = .ok (.addReg 0xA 0xB) := by decide
theorem test_decode_sub : decode 0b1000000100100101 = .ok (.sub 1 2) := by decide
theorem test_decode_shr : decode 0b1000000100100110 = .ok (.shr 1 2) := by decide
theorem test_decode_subn : decode 0b1000000100100111 = .ok (.subn 1 2) := by decide
theorem test_decode_shl : decode 0b1000101010111110 = .ok (.shl 0xA 0xB) := by decide
theorem test_decode_sneReg : decode 0b1001000100100000 = .ok (.sneReg 1 2) := by decide
theorem test_decode_ldI : decode 0b1010001011110000 = .ok (.ldI 0x2F0) := by decide
theorem test_decode_jpV0 : decode 0b1011101010111100 = .ok (.jpV0 0xABC) := by decide
theorem test_decode_rnd : decode 0b1100001100001111 = .ok (.rnd 3 0x0F) := by decide
theorem test_decode_drw : decode 0b1101000100101111 = .ok (.drw 1 2 0xF) := by decide
theorem test_decode_skp : decode 0b1110010110011110 = .ok (.skp 5) := by decide
theorem test_decode_sknp : decode 0b1110010110100001 = .ok (.sknp 5) := by decide
theorem test_decode_ldVxDt : decode 0b1111001100000111 = .ok (.ldVxDt 3) := by decide
theorem test_decode_ldVxK : decode 0b1111001100001010 = .ok (.ldVxK 3) := by decide
theorem test_decode_ldDtVx : decode 0b1111000100010101 = .ok (.ldDtVx 1) := by decide
theorem test_decode_ldStVx : decode 0b1111000100011000 = .ok (.ldStVx 1) := by decide
theorem test_decode_addI : decode 0b1111000100011110 = .ok (.addI 1) := by decide
theorem test_decode_ldF : decode 0b1111001000101001 = .ok (.ldF 2) := by decide
theorem test_decode_ldB : decode 0b1111000000110011 = .ok (.ldB 0) := by decide
theorem test_decode_ldMemVx : decode 0b1111111101010101 = .ok (.ldMemVx 0xF) := by decide
theorem test_decode_ldVxMem : decode 0b1111000001100101 = .ok (.ldVxMem 0) := by decide

/-- T-DEC-3: every field is extracted, whatever the opcode (R72). -/
theorem test_decode_fields_dec3 :
    (decodeFields 0x8ABE).tag = .shl ∧ (decodeFields 0x8ABE).x = 0xA ∧ (decodeFields 0x8ABE).y = 0xB ∧
      (decodeFields 0x8ABE).n = 0xE ∧ (decodeFields 0x8ABE).kk = 0xBE ∧ (decodeFields 0x8ABE).nnn = 0xABE := by decide

/-- T-DEC-8 to T-DEC-16: words of R77's groups are rejected by name. -/
theorem test_decode_unknown :
    decode 0x0123 = .error (.unknown 0x0123) ∧ decode 0x00E1 = .error (.unknown 0x00E1) ∧
      decode 0x5121 = .error (.unknown 0x5121) ∧ decode 0x8128 = .error (.unknown 0x8128) ∧
      decode 0x812F = .error (.unknown 0x812F) ∧ decode 0x9121 = .error (.unknown 0x9121) ∧
      decode 0xE19F = .error (.unknown 0xE19F) ∧ decode 0xF1FF = .error (.unknown 0xF1FF) ∧
      decode 0xF10B = .error (.unknown 0xF10B) := by decide

/-- Bytes that are no whole instruction are rejected by name (R70). -/
theorem test_decode_truncated : decodeBytes [0x12] = .error .truncated ∧ decodeBytes [] = .error .truncated := by decide

theorem test_decodeTableWord : decodeTableWord 16 0xD12F = some (.drw 1 2 0xF) ∧ decodeTableWord 16 0x0123 = none := by
  decide

theorem test_encode_words : encode (.drw 1 2 0xF) = 0xD12F ∧ encode (.ldVxMem 0) = 0xF065 ∧ encode .ret = 0x00EE :=
  ⟨rfl, rfl, rfl⟩

/-! ## The step (T-STP) -/

theorem test_stp1_big_endian : goes (step (machine 0x1234)) (fun t => t.pc == 0x234) = true := by decide

theorem test_stp2_odd_pc : goes (step (machineAt 0x201 0x6A0F)) (fun t => t.getV 0xA == 0x0F && t.pc == 0x203) = true := by
  decide

theorem test_stp3_last_word : goes (step (machineAt 0xFFE 0x00E0)) (fun t => t.pc == 0x1000) = true := by decide

theorem test_stp5_fetch_range : faults (step { State.reset with pc := 0xFFF }) (.fetchRange 0xFFF 0xFFF) = true := by decide

theorem test_stp6_faulted :
    faults (step { machine 0x00E0 with faulted := some (.keyRange 16 0x200) }) (.keyRange 16 0x200) = true := by decide

theorem test_u1_unknown : goes (step (machine 0x0123)) (fun t => t.pc == 0x202 && t.i == 0 && t.sp == 0) = true := by decide

/-! ## Control transfer and skips (T-CTL) -/

theorem test_ctl3_call :
    goes (step (machineAt 0x204 0x2300)) (fun t => t.stack[0] == 0x206 && t.sp == 1 && t.pc == 0x300) = true := by decide

theorem test_ctl4_ret :
    goes (step { machineAt 0x20E 0x00EE with sp := 1, stack := (Vector.replicate 16 0).set 0 0x206 })
      (fun t => t.sp == 0 && t.pc == 0x206) = true := by decide

theorem test_ctl5_overflow : faults (step { machine 0x2300 with sp := 16 }) (.stackOverflow 0x202 0x200) = true := by decide

theorem test_ctl6_underflow : faults (step (machine 0x00EE)) (.stackUnderflow 0x202 0x200) = true := by decide

theorem test_ctl7_se : goes (step ((machine 0x332A).setV 3 0x2A)) (fun t => t.pc == 0x204) = true := by decide

theorem test_ctl8_se_not : goes (step ((machine 0x332A).setV 3 0x2B)) (fun t => t.pc == 0x202) = true := by decide

theorem test_ctl9_sne : goes (step ((machine 0x432A).setV 3 0x2B)) (fun t => t.pc == 0x204) = true := by decide

theorem test_ctl10_sne_not : goes (step ((machine 0x432A).setV 3 0x2A)) (fun t => t.pc == 0x202) = true := by decide

theorem test_ctl11_se_reg :
    goes (step (((machine 0x5120).setV 1 7).setV 2 7)) (fun t => t.pc == 0x204) = true := by decide

theorem test_ctl13_sne_reg :
    goes (step (((machine 0x9120).setV 1 7).setV 2 8)) (fun t => t.pc == 0x204) = true := by decide

theorem test_ctl14_sne_self : goes (step ((machine 0x9440).setV 4 9)) (fun t => t.pc == 0x202) = true := by decide

theorem test_ctl15_jp_v0 : goes (step ((machine 0xB300).setV 0 0x10)) (fun t => t.pc == 0x310) = true := by decide

theorem test_ctl16_jp_v0_past_memory :
    goes (step ((machine 0xBF80).setV 0 0xFF)) (fun t => t.pc == 0x107F && faults (step t) (.fetchRange 0x107F 0x107F))
      = true := by decide

theorem test_ctl17_skip_past_memory : goes (step (machineAt 0xFFC 0x3F00)) (fun t => t.pc == 0x1000) = true := by decide

/-! ## Register loads and the ALU (T-ALU) -/

theorem test_alu2_add_imm_wraps :
    goes (step (((machine 0x7101).setV 1 0xFF).setV 15 0x77)) (fun t => t.getV 1 == 0 && t.getV 15 == 0x77) = true := by decide

theorem test_alu4_ld : goes (step ((machine 0x8120).setV 2 0x55)) (fun t => t.getV 1 == 0x55) = true := by decide

theorem test_alu5_or :
    goes (step ((((machine 0x8121).setV 1 0xF0).setV 2 0x0F).setV 15 0x33))
      (fun t => t.getV 1 == 0xFF && t.getV 15 == 0x33) = true := by decide

theorem test_alu6_and :
    goes (step (((machine 0x8122).setV 1 0xF0).setV 2 0x3C)) (fun t => t.getV 1 == 0x30) = true := by decide

theorem test_alu7_xor :
    goes (step (((machine 0x8123).setV 1 0xF0).setV 2 0x3C)) (fun t => t.getV 1 == 0xCC) = true := by decide

theorem test_alu9_add_vf :
    goes (step (((machine 0x8F14).setV 15 200).setV 1 100)) (fun t => t.getV 15 == 44) = true := by decide

theorem test_s3_add_carry :
    goes (step (((machine 0x8AB4).setV 0xA 250).setV 0xB 10)) (fun t => t.getV 0xA == 4 && t.getV 15 == 1) = true := by decide

theorem test_alu15_sub_equal :
    goes (step (((machine 0x8125).setV 1 5).setV 2 5)) (fun t => t.getV 1 == 0 && t.getV 15 == 0) = true := by decide

theorem test_alu19_sub_vf_operand :
    goes (step (((machine 0x81F5).setV 1 10).setV 15 3)) (fun t => t.getV 1 == 7 && t.getV 15 == 1) = true := by decide

theorem test_alu22_shr_ignores_y :
    goes (step (((machine 0x8126).setV 1 0xFE).setV 2 1)) (fun t => t.getV 1 == 0x7F && t.getV 15 == 0) = true := by decide

theorem test_alu23_shr_vf : goes (step ((machine 0x8F06).setV 15 3)) (fun t => t.getV 15 == 1) = true := by decide

theorem test_alu24_subn :
    goes (step (((machine 0x8127).setV 1 3).setV 2 10)) (fun t => t.getV 1 == 7 && t.getV 15 == 1) = true := by decide

theorem test_alu26_subn_borrow :
    goes (step (((machine 0x8127).setV 1 1).setV 2 0)) (fun t => t.getV 1 == 0xFF && t.getV 15 == 0) = true := by decide

theorem test_alu27_shl :
    goes (step ((machine 0x810E).setV 1 0x81)) (fun t => t.getV 1 == 0x02 && t.getV 15 == 1) = true := by decide

theorem test_alu30_shl_vf : goes (step ((machine 0x8F0E).setV 15 0x81)) (fun t => t.getV 15 == 0x02) = true := by decide

/-- T-ALU-32: with a mask of 0 the result is 0 whatever byte is drawn. -/
theorem test_alu32_rnd_mask_zero : ∃ t, step (machine 0xC300) = .next t ∧ t.getV 3 = 0 := by
  refine ⟨_, rfl, ?_⟩
  exact (State.setV_getV_same _ _ _).trans BitVec.and_zero

/-! ## Index register and memory (T-MEM) -/

theorem test_mem1_ld_i : goes (step (machine 0xA2F0)) (fun t => t.i == 0x2F0) = true := by decide

theorem test_mem3_add_i_wraps :
    goes (step { (machine 0xF11E).setV 1 1 with i := 0xFFFF }) (fun t => t.i == 0 && t.getV 15 == 0) = true := by decide

theorem test_mem5_ld_f : goes (step ((machine 0xF229).setV 2 0xA)) (fun t => t.i == 0x082) = true := by decide

theorem test_mem7_ld_f_unmasked :
    goes (step ((machine 0xF229).setV 2 0xFF)) (fun t => t.i == 0x050 + 1275) = true := by decide

theorem test_mem8_bcd :
    goes (step { (machine 0xF033).setV 0 254 with i := 0x300 })
      (fun t => t.byteAt 0x300 == 2 && t.byteAt 0x301 == 5 && t.byteAt 0x302 == 4 && t.i == 0x300) = true := by decide

theorem test_mem14_bcd_range :
    faults (step { (machine 0xF033).setV 0 255 with i := 0xFFE }) (.writeRange 0x1000 0x200) = true := by decide

theorem test_mem15_dump :
    goes (step { (((machine 0xF255).setV 0 0x11).setV 1 0x22).setV 2 0x33 with i := 0x400 })
      (fun t => t.byteAt 0x400 == 0x11 && t.byteAt 0x401 == 0x22 && t.byteAt 0x402 == 0x33 && t.byteAt 0x403 == 0) = true := by
  decide

theorem test_mem17_dump_range :
    faults (step { machine 0xFF55 with i := 0xFF8 }) (.writeRange 0x1000 0x200) = true := by decide

theorem test_mem18_load :
    goes (step (poke { machine 0xF265 with i := 0x300 } 0x300 [2, 5, 4]))
      (fun t => t.getV 0 == 2 && t.getV 1 == 5 && t.getV 2 == 4 && t.getV 3 == 0 && t.i == 0x300) = true := by decide

theorem test_mem20_load_range :
    faults (step { machine 0xF065 with i := 0x1000 }) (.readRange 0x1000 0x200) = true := by decide

/-! ## Display (T-DRW) -/

theorem test_drw1_cls :
    goes (step ((machine 0x00E0).setPixel 10 5 true)) (fun t => t.pixel 10 5 == false && t.pc == 0x202) = true := by decide

theorem test_drw2_wraps :
    goes (step (poke { (machine 0xD001).setV 0 62 with i := 0x300 } 0x300 [0xF0]))
      (fun t => t.pixel 62 30 && t.pixel 63 30 && t.pixel 0 30 && t.pixel 1 30 && !t.pixel 2 30 && t.getV 15 == 0) = true := by
  decide

theorem test_drw5_sticky_collision :
    goes (step (poke { (((machine 0xD122).setV 1 10).setV 2 5).setPixel 10 5 true with i := 0x300 } 0x300 [0x80, 0x80]))
      (fun t => !t.pixel 10 5 && t.pixel 10 6 && t.getV 15 == 1) = true := by decide

/-! ## Keys and timers (T-KEY, T-TMR) -/

theorem test_key1_skp : goes (step (keysDown [7] ((machine 0xE59E).setV 5 7))) (fun t => t.pc == 0x204) = true := by decide

theorem test_key3_sknp : goes (step (keysDown [7] ((machine 0xE5A1).setV 5 7))) (fun t => t.pc == 0x202) = true := by decide

theorem test_key5_range : faults (step ((machine 0xE59E).setV 5 16)) (.keyRange 16 0x200) = true := by decide

theorem test_key6_range : faults (step ((machine 0xE5A1).setV 5 0xFF)) (.keyRange 0xFF 0x200) = true := by decide

theorem test_key8_captures_lowest :
    goes (step (keysDown [9, 7] (machine 0xF30A)))
      (fun t => t.kw == .awaitingRelease 7 && t.pc == 0x200 && t.getV 3 == 0) = true := by decide

theorem test_key10_completes :
    goes (step (keysDown [2] { machine 0xF30A with kw := .awaitingRelease 7 }))
      (fun t => t.getV 3 == 7 && t.kw == .idle && t.pc == 0x202) = true := by decide

theorem test_tmr1_read : goes (step { machine 0xF307 with dt := 0x3C }) (fun t => t.getV 3 == 0x3C) = true := by decide

theorem test_tmr2_write : goes (step ((machine 0xF115).setV 1 0x3C)) (fun t => t.dt == 0x3C) = true := by decide

theorem test_tmr3_sound : goes (step ((machine 0xF118).setV 1 5)) (fun t => t.st == 5 && soundOn t) = true := by decide

theorem test_tmr6_tick :
    (tick { State.reset with st := 2 }).dt = 0 ∧ (tick { State.reset with st := 2 }).st = 1 := by decide

/-- T-LD-4, S-S1: a load puts its bytes at 0x200 and the first step runs them. -/
theorem test_ld4_load :
    (load [0x12, 0x00] State.reset).1 = true ∧ (load [0x12, 0x00] State.reset).2.byteAt 0x200 = 0x12 ∧
      goes (step (load [0x00, 0xE0] State.reset).2) (fun t => t.pc == 0x202) = true := by decide

/-- T-LD-3: a buffer one byte too long is rejected. -/
theorem test_ld3_rejected : (load (List.replicate 3585 7) State.reset).1 = false := by
  rw [load, test_image_too_long_refused]; rfl

/-! ## Witnesses: for each statement with hypotheses, states and operands that meet them together -/

/-- A machine that stands at an LD V3,K (0xF30A) at 0x200 with keys 7 and 9 down. -/
def waiting : State := keysDown [7, 9] (machine 0xF30A)

/-- A machine whose stack holds one entry. -/
def called : State := { machine 0x00EE with sp := 1, stack := (Vector.replicate 16 0).set 0 0x206 }

/-- Two registers apart from each other and from VF: the register hypotheses of the ALU statements. -/
theorem witness_registers_apart : (1 : RegIdx) ≠ 15 ∧ (2 : RegIdx) ≠ 1 ∧ (2 : RegIdx) ≠ 15 := by decide

theorem witness_EncodeOfDecodeIsIdentity : decode 0xFF65 = .ok (.ldVxMem 15) ∧ decode 0x8ABE = .ok (.shl 0xA 0xB) := by decide

theorem witness_NoWordMatchesTwoRows_match :
    (⟨.shl, 0x800E, 0xF00F⟩ : Row) ∈ opcodeTable ∧ (⟨.shl, 0x800E, 0xF00F⟩ : Row).matches 0x8ABE = true := by decide

theorem witness_NoWordMatchesTwoRows_rows :
    (⟨.cls, 0x00E0, 0xFFFF⟩ : Row) ∈ opcodeTable ∧ (⟨.ret, 0x00EE, 0xFFFF⟩ : Row) ∈ opcodeTable ∧
      (⟨.cls, 0x00E0, 0xFFFF⟩ : Row) ≠ ⟨.ret, 0x00EE, 0xFFFF⟩ := by decide

theorem witness_StepRunsTheDecodedInstruction :
    (machineAt 0xFFE 0x00E0).faulted = none ∧ (machineAt 0xFFE 0x00E0).pc.toNat + 1 < 4096 ∧
      decodeBytes [(machineAt 0xFFE 0x00E0).byteAt 0xFFE, (machineAt 0xFFE 0x00E0).byteAt 0xFFF] = .ok (.cls, []) := by decide

theorem witness_UnknownWordIsANoOp :
    (machine 0x0123).faulted = none ∧ (machine 0x0123).pc.toNat + 1 < 4096 ∧
      decode (wordOfBytes ((machine 0x0123).byteAt 0x200) ((machine 0x0123).byteAt 0x201)) = .error (.unknown 0x0123) := by decide

theorem witness_FetchIsBigEndianAndRangeChecked_fetched : (machineAt 0xFFE 0x00E0).pc.toNat + 1 < 4096 := by decide

theorem witness_FetchIsBigEndianAndRangeChecked_faults :
    4096 ≤ ({ State.reset with pc := 0xFFF } : State).pc.toNat + 1 ∧ 4096 ≤ ({ State.reset with pc := 0xFFFF } : State).pc.toNat + 1 ∧
      ({ State.reset with pc := 0xFFF } : State).faulted = none := by decide

theorem witness_FaultedMachineTakesNoStep :
    ({ State.reset with faulted := some (.keyRange 16 0x200) } : State).faulted = some (.keyRange 16 0x200) ∧
      Phase.loaded ≠ .created ∧ Phase.stepped ≠ .created := by decide

theorem witness_RetReturnsToThePoppedAddress_pops :
    0 < called.sp.val ∧ 0 < ({ called with sp := 16 } : State).sp.val := by decide

theorem witness_RetReturnsToThePoppedAddress_underflows : State.reset.sp.val = 0 := rfl

theorem witness_CallPushesTheReturnAddress_pushes :
    State.reset.sp.val < 16 ∧ ({ State.reset with sp := 15 } : State).sp.val < 16 := by decide

theorem witness_CallPushesTheReturnAddress_overflows : ({ State.reset with sp := 16 } : State).sp.val = 16 := rfl

/-- A state that has the stack a CALL at `SP = 15` left. -/
theorem witness_RetReturnsAfterItsCall :
    ({ State.reset with sp := 15 } : State).sp.val < 16 ∧
      ∃ t, ∃ u : State, exec (.call 0x300) { State.reset with sp := 15 } = .next t ∧ u.stack = t.stack ∧ u.sp = t.sp :=
  ⟨by decide, _, _, rfl, rfl, rfl⟩

theorem witness_RegisterSkipsMoveOnlyThePc_immediate : State.reset.getV 3 = 0 ∧ State.reset.getV 3 ≠ 0x2A := by decide

theorem witness_RegisterSkipsMoveOnlyThePc_registers :
    State.reset.getV 1 = State.reset.getV 2 ∧ (State.reset.setV 1 7).getV 1 ≠ (State.reset.setV 1 7).getV 2 := by decide

/-- The lowest target, 0xFFF, whose fetch faults. -/
theorem witness_JpV0AddsRegisterZero :
    State.reset.faulted = none ∧ ∃ t, exec (.jpV0 0xFFF) State.reset = .next t ∧ 0xFFF ≤ t.pc.toNat :=
  ⟨rfl, _, rfl, by decide⟩

theorem witness_BcdStoresThreeDigits_stores :
    ({ State.reset with i := 0xFFD } : State).i.toNat + 2 < 4096 ∧
      ∀ k, k < 3 → 0xFFC ≠ indexed { State.reset with i := 0xFFD } k :=
  ⟨by decide, fun k _ => by simp [indexed]; omega⟩

theorem witness_BcdStoresThreeDigits_faults :
    4096 ≤ ({ State.reset with i := 0xFFE } : State).i.toNat + 2 ∧ 4096 ≤ ({ State.reset with i := 0xFFFF } : State).i.toNat + 2 := by
  decide

theorem witness_RegisterDumpStoresTheRange_stores :
    ({ State.reset with i := 0xFF0 } : State).i.toNat + (15 : RegIdx).toNat < 4096 ∧ (15 : RegIdx).toNat ≤ (15 : RegIdx).toNat ∧
      ∀ k, k ≤ (15 : RegIdx).toNat → 0xFEF ≠ indexed { State.reset with i := 0xFF0 } k :=
  ⟨by decide, by decide, fun k _ => by simp [indexed]; omega⟩

theorem witness_RegisterDumpStoresTheRange_faults :
    4096 ≤ ({ State.reset with i := 0xFF1 } : State).i.toNat + (15 : RegIdx).toNat ∧
      4096 ≤ ({ State.reset with i := 0x1000 } : State).i.toNat + (0 : RegIdx).toNat := by decide

theorem witness_RegisterLoadReadsTheRange_loads :
    ({ State.reset with i := 0xFFF } : State).i.toNat + (0 : RegIdx).toNat < 4096 ∧ (0 : RegIdx).toNat ≤ (0 : RegIdx).toNat ∧
      (0 : RegIdx).toNat < (1 : RegIdx).toNat := by decide

theorem witness_RegisterLoadReadsTheRange_faults :
    4096 ≤ ({ State.reset with i := 0x1000 } : State).i.toNat + (0 : RegIdx).toNat ∧
      4096 ≤ ({ State.reset with i := 0xFF1 } : State).i.toNat + (15 : RegIdx).toNat := by decide

theorem witness_DumpThenLoadRestoresTheRegisters :
    ({ State.reset with i := 0xFF0 } : State).i.toNat + (15 : RegIdx).toNat < 4096 := by decide

theorem witness_NextFetchSeesStoredBytes_dump :
    ({ State.reset with pc := 0xFFE, i := 0xFFE } : State).pc = ({ State.reset with pc := 0xFFE, i := 0xFFE } : State).i ∧
      1 ≤ (1 : RegIdx).toNat ∧ ({ State.reset with pc := 0xFFE, i := 0xFFE } : State).i.toNat + (1 : RegIdx).toNat < 4096 := by decide

theorem witness_NextFetchSeesStoredBytes_bcd :
    ({ State.reset with pc := 0xFFD, i := 0xFFD } : State).pc = ({ State.reset with pc := 0xFFD, i := 0xFFD } : State).i ∧
      ({ State.reset with pc := 0xFFD, i := 0xFFD } : State).i.toNat + 2 < 4096 := by decide

/-- No row at any `I`, and one row at the last address. -/
theorem witness_DrawTogglesTheCoveredPixels_draws :
    ((0 : BitVec 4).toNat = 0 ∨ ({ State.reset with i := 0xFFFF } : State).i.toNat + (0 : BitVec 4).toNat ≤ 4096) ∧
      ((1 : BitVec 4).toNat = 0 ∨ ({ State.reset with i := 0xFFF } : State).i.toNat + (1 : BitVec 4).toNat ≤ 4096) := by decide

theorem witness_DrawTogglesTheCoveredPixels_faults :
    (2 : BitVec 4).toNat ≠ 0 ∧ 4096 < ({ State.reset with i := 0xFFF } : State).i.toNat + (2 : BitVec 4).toNat := by decide

/-- A pixel that is on, covered through the wrap of both coordinates: glyph 0 of the font drawn from (63, 31). -/
theorem witness_DrawTogglesTheCoveredPixels_collision :
    ∃ c r, spriteCovers { State.reset with i := 0x050 } 63 31 2 c r ∧ c = 0 ∧ r = 31 ∧
      (State.setPixel { State.reset with i := 0x050 } 0 31 true).pixel c r = true :=
  ⟨0, 31, ⟨0, 1, by decide, by decide, by decide, by decide, by decide⟩, rfl, rfl, by decide⟩

/-- On a display that is all off every covered pixel is off. -/
theorem witness_DrawTogglesTheCoveredPixels_no_collision :
    ∀ c r, spriteCovers State.reset 0 0 15 c r → State.reset.pixel c r = false :=
  fun c r _ => by simp [State.pixel, State.reset]

theorem witness_DrawingTwiceRestoresTheDisplay :
    (1 : RegIdx) ≠ 15 ∧ (2 : RegIdx) ≠ 15 ∧
      ((5 : BitVec 4).toNat = 0 ∨ ({ State.reset with i := 0x050 } : State).i.toNat + (5 : BitVec 4).toNat ≤ 4096) := by decide

theorem witness_KeySkipsReadTheKeyOfVx_down :
    ∃ h : ((keysDown [15] (State.reset.setV 5 15)).getV 5).toNat < 16,
      (keysDown [15] (State.reset.setV 5 15)).keyDown ⟨((keysDown [15] (State.reset.setV 5 15)).getV 5).toNat, h⟩ = true :=
  ⟨by decide, by decide⟩

theorem witness_KeySkipsReadTheKeyOfVx_up :
    ∃ h : (State.reset.getV 5).toNat < 16, State.reset.keyDown ⟨(State.reset.getV 5).toNat, h⟩ = false :=
  ⟨by decide, by decide⟩

theorem witness_KeySkipsReadTheKeyOfVx_faults :
    16 ≤ ((State.reset.setV 5 16).getV 5).toNat ∧ 16 ≤ ((State.reset.setV 5 0xFF).getV 5).toNat := by decide

theorem witness_WaitForKeyStateMachine_no_key : State.reset.kw = .idle ∧ ∀ j, State.reset.keyDown j = false := by decide

theorem witness_WaitForKeyStateMachine_captures :
    waiting.kw = .idle ∧ waiting.keyDown 7 = true ∧ ∀ j, j < 7 → waiting.keyDown j = false := by decide

theorem witness_WaitForKeyStateMachine_held :
    ({ waiting with kw := .awaitingRelease 9 } : State).kw = .awaitingRelease 9 ∧
      ({ waiting with kw := .awaitingRelease 9 } : State).keyDown 9 = true := by decide

theorem witness_WaitForKeyStateMachine_released :
    ({ waiting with kw := .awaitingRelease 15 } : State).kw = .awaitingRelease 15 ∧
      ({ waiting with kw := .awaitingRelease 15 } : State).keyDown 15 = false := by decide

theorem witness_WaitWithoutAKeyChangesNothing :
    (machine 0xF30A).faulted = none ∧ (machine 0xF30A).pc.toNat + 1 < 4096 ∧
      decode (wordOfBytes ((machine 0xF30A).byteAt 0x200) ((machine 0xF30A).byteAt 0x201)) = .ok (.ldVxK 3) ∧
      (machine 0xF30A).kw = .idle ∧ ∀ j, (machine 0xF30A).keyDown j = false := by decide

theorem witness_PressThenReleaseEndsTheWait :
    waiting.faulted = none ∧ waiting.pc.toNat + 1 < 4096 ∧
      decode (wordOfBytes (waiting.byteAt 0x200) (waiting.byteAt 0x201)) = .ok (.ldVxK 3) ∧ waiting.kw = .idle ∧
      waiting.keyDown 7 = true ∧ (∀ j, j < 7 → waiting.keyDown j = false) ∧ (Vector.replicate 16 false)[7] = false := by decide

theorem witness_LoadCopiesOrRejects_copies (b : Byte) : (List.replicate 3584 b).length ≤ 4096 - 0x200 := by
  rw [List.length_replicate]

theorem witness_LoadCopiesOrRejects_rejects (b : Byte) : 4096 - 0x200 < (List.replicate 3585 b).length := by
  rw [List.length_replicate]; decide

/-- After one load, and after a load and a step, a session has a next session. -/
theorem witness_LoadIsAcceptedOnlyFirst_refused :
    (∃ y, Session.run [.tick, .load [0x12, 0x00]] (Session.create Params.conventional Draw.named) = .next y) ∧
      (∃ y, Session.run [.step] ⟨machine 0x1200, .loaded⟩ = .next y) :=
  ⟨⟨_, rfl⟩, ⟨_, rfl⟩⟩

theorem witness_LoadIsAcceptedOnlyFirst_accepted :
    ∀ a ∈ ([.tick, .readDisplay, .soundOn] : List Transaction), a ≠ .step ∧ ∀ b, a ≠ .load b := by simp

/-- Addresses on both sides of the font, for the base 0x050, the last glyph byte and the last stack entry. -/
theorem witness_CreationInstallsTheFontAndTheEntryPoint :
    79 < 80 ∧ 15 < 16 ∧ 0x04F < Params.conventional.fontBase.val ∧ Params.conventional.fontBase.val + 80 ≤ 0x0A0 ∧
      0x0A0 < 4096 := by decide

/-- A buffer of two bytes: its last byte, and the addresses on both sides of it. -/
theorem witness_CreationInstallsTheFontAndTheEntryPoint_load :
    ([0x12, 0x00] : List Byte).length ≤ 4096 - 0x200 ∧ 1 < ([0x12, 0x00] : List Byte).length ∧ 0x1FF < 0x200 ∧
      0x200 + ([0x12, 0x00] : List Byte).length ≤ 0x202 ∧ 0x202 < 4096 ∧
      Params.conventional.fontBase.val + 80 ≤ 0x1FF := by decide

theorem witness_OnlyNamedRegistersAndTheFlagChange_register :
    ∃ t, exec (.addReg 1 2) State.reset = .next t ∧ namesDestination (.addReg 1 2) 3 = false ∧
      ((3 : RegIdx) = 15 → writesFlag (.addReg 1 2) = false) :=
  ⟨_, rfl, by decide, by decide⟩

theorem witness_OnlyNamedRegistersAndTheFlagChange_flag :
    ∃ t, exec (.ldVxMem 14) State.reset = .next t ∧ namesDestination (.ldVxMem 14) 15 = false ∧
      ((15 : RegIdx) = 15 → writesFlag (.ldVxMem 14) = false) :=
  ⟨_, rfl, by decide, by decide⟩

theorem witness_OnlyIndexInstructionsChangeI :
    ∃ t, exec (.ldMemVx 15) State.reset = .next t ∧ (∀ nnn, Instr.ldMemVx 15 ≠ .ldI nnn) ∧ (∀ x, Instr.ldMemVx 15 ≠ .addI x) ∧
      ∀ x, Instr.ldMemVx 15 ≠ .ldF x :=
  ⟨_, rfl, by simp, by simp, by simp⟩

theorem witness_MemoryChangesOnlyAtTheStoredBytes :
    ∃ t, exec (.ldB 0) State.reset = .next t ∧ ∀ k, k < bytesStored (.ldB 0) → 3 ≠ indexed State.reset k :=
  ⟨_, rfl, by decide⟩

theorem witness_OnlyClsAndDrwChangeTheDisplay :
    ∃ t, exec .ret called = .next t ∧ Instr.ret ≠ .cls ∧ ∀ x y n, Instr.ret ≠ .drw x y n := ⟨_, rfl, by simp, by simp⟩

theorem witness_OnlyCallAndRetChangeTheStack :
    (∃ t, exec (.call 0x300) { State.reset with sp := 15 } = .next t ∧ 14 < ({ State.reset with sp := 15 } : State).sp.val) ∧
      ∃ t, exec .cls State.reset = .next t ∧ (∀ nnn, Instr.cls ≠ .call nnn) ∧ Instr.cls ≠ .ret :=
  ⟨⟨_, rfl, by decide⟩, _, rfl, by simp, by simp⟩

theorem witness_TimersKeyWaitAndDrawsHaveOneWriter :
    ∃ t, exec .cls State.reset = .next t ∧ (∀ x, Instr.cls ≠ .ldDtVx x) ∧ (∀ x, Instr.cls ≠ .ldStVx x) ∧
      (∀ x, Instr.cls ≠ .ldVxK x) ∧ ∀ x kk, Instr.cls ≠ .rnd x kk :=
  ⟨_, rfl, by simp, by simp, by simp, by simp⟩

theorem witness_StraightLineInstructionsLeaveThePc :
    ∃ t, exec (.drw 1 2 15) State.reset = .next t ∧ mayMovePc (.drw 1 2 15) = false := ⟨_, rfl, rfl⟩

theorem witness_StepsNeverWriteKeysOrParameters :
    (∃ t f, afterStep waiting = .next (t, f)) ∧ (∃ t f, afterStep { State.reset with pc := 0xFFF } = .next (t, some f)) ∧
      ∃ t, step waiting = .next t :=
  ⟨⟨_, _, rfl⟩, ⟨_, _, rfl⟩, _, rfl⟩

theorem witness_InstructionsCompleteExactlyWhenNoConditionHolds :
    completes (.ldMemVx 15) { State.reset with i := 0xFF0 } = true ∧ completes (.ldMemVx 15) { State.reset with i := 0xFF1 } = false ∧
      completes .ret called = true ∧ completes .ret State.reset = false := by decide

theorem witness_FaultRecordsFollowTheTable :
    exec .ret State.reset = .fault (.stackUnderflow 0x200 0x1FE) ∧
      exec (.call 0x300) { State.reset with sp := 16 } = .fault (.stackOverflow 0x200 0x1FE) ∧
      exec (.skp 5) (State.reset.setV 5 16) = .fault (.keyRange 16 0x1FE) ∧
      exec (.drw 1 2 2) { State.reset with i := 0xFFF } = .fault (.readRange 0x1000 0x1FE) ∧
      exec (.ldB 0) { State.reset with i := 0xFFE } = .fault (.writeRange 0x1000 0x1FE) :=
  ⟨rfl, rfl, rfl, rfl, rfl⟩

theorem witness_NoInstructionReadsTheSoundTimer :
    (∃ t, exec (.ldVxDt 3) State.reset = .next t) ∧ ∃ f, exec .ret State.reset = .fault f := ⟨⟨_, rfl⟩, _, rfl⟩

/-- A machine in a key wait meets the invariant and steps. -/
theorem witness_StepKeepsTheInvariant :
    ({ waiting with kw := .awaitingRelease 7 } : State).Inv ∧ ∃ t, step { waiting with kw := .awaitingRelease 7 } = .next t :=
  ⟨⟨by decide, fun _ _ => ⟨by decide, 3, by decide⟩⟩, _, rfl⟩

theorem witness_EveryScheduleKeepsTheInvariant :
    ∃ y, Session.run [.load [0xF3, 0x0A], .setKeys (Vector.replicate 16 true), .tick]
      (Session.create Params.conventional Draw.named) = .next y := ⟨_, rfl⟩

theorem witness_StepsWaitForTheLoad_refused :
    (Session.create Params.conventional Draw.named).phase = .created ∧ .step ∈ ([.tick, .step] : List Transaction) ∧
      ∀ a ∈ ([.tick, .step] : List Transaction), ∀ b, a ≠ .load b := ⟨rfl, by simp, by simp⟩

theorem witness_StepsWaitForTheLoad_accepted :
    (∀ a ∈ ([.tick] : List Transaction), a ≠ .step ∧ ∀ b, a ≠ .load b) ∧
      ∀ a ∈ ([.step, .tick, .step] : List Transaction), ∀ b, a ≠ .load b := ⟨by simp, by simp⟩

theorem witness_StepTransactionReportsTheStep_goes :
    Phase.loaded ≠ .created ∧ ∃ t, step (machine 0x1200) = .next t := ⟨by decide, _, rfl⟩

/-- A RET on an empty stack, and a fetch past memory. -/
theorem witness_StepTransactionReportsTheStep_faults :
    (machine 0x00EE).faulted = none ∧ step (machine 0x00EE) = .fault (.stackUnderflow 0x202 0x200) ∧
      step { State.reset with pc := 0xFFF } = .fault (.fetchRange 0xFFF 0xFFF) := ⟨rfl, rfl, rfl⟩

/-- A faulted machine goes on through ticks, key updates and steps that it does not take. -/
theorem witness_StepTransactionReportsTheStep_mark :
    ({ State.reset with faulted := some (.keyRange 16 0x200) } : State).faulted = some (.keyRange 16 0x200) ∧
      ∃ y, Session.run [.tick, .step] ⟨{ State.reset with faulted := some (.keyRange 16 0x200) }, .stepped⟩ = .next y :=
  ⟨rfl, _, rfl⟩

theorem witness_EndOfRunIsLeftUnchanged : endOfRun (machine 0x1200) = true ∧ endOfRun (machineAt 0xFFE 0x1FFE) = true := by decide

end Sys2Proof.Tests
end

section
/-! What no Step writes (R29, R7, R201): the keys and the parameters, and the fault mark of a step that goes on. -/

namespace Sys2Proof.Machine

/-- Only the host writes the keys (R29), so a faulting step leaves them. -/
@[simp] theorem State.afterFault_key (s : State) (f : Fault) : (s.afterFault f).key = s.key := rfl

/-- Nothing writes the parameters (R7), so a faulting step leaves them. -/
@[simp] theorem State.afterFault_params (s : State) (f : Fault) : (s.afterFault f).params = s.params := rfl

/-- A step that goes on was taken on an unfaulted machine: it executes an instruction on the advanced state or, for an
UNKNOWN word, only advances (R71, R76), and neither writes the keys, the parameters or the fault mark. -/
theorem step_keeps (s t : State) (h : step s = .next t) : t.key = s.key ∧ t.params = s.params ∧ t.faulted = none := by
  obtain ⟨f, -, e⟩ | ⟨-, -, e⟩ | ⟨hf, -, i, -, e⟩ | ⟨hf, -, -, e⟩ := step_cases s <;> rw [e] at h
  case inl | inr.inl => cases h
  case inr.inr.inl =>
    obtain ⟨hk, hp, hm⟩ := exec_keeps i s.advance t h
    exact ⟨hk, hp, hm.trans hf⟩
  case inr.inr.inr =>
    cases h
    exact ⟨rfl, rfl, hf⟩

/-- A Step transaction writes neither the keys nor the parameters, whether it goes on, faults, or finds the machine
already faulted (R29, R211). -/
theorem afterStep_keeps (s t : State) (f : Option Fault) (h : afterStep s = .next (t, f)) :
    t.key = s.key ∧ t.params = s.params := by
  obtain ⟨u, hu, e⟩ | ⟨g, -, -, e⟩ | ⟨g, -, -, e⟩ | ⟨r, -, e⟩ := afterStep_cases s <;> rw [e] at h <;> cases h
  case inl =>
    obtain ⟨hk, hp, -⟩ := step_keeps s t hu
    exact ⟨hk, hp⟩
  case inr.inl => exact ⟨s.afterFault_key g, s.afterFault_params g⟩
  case inr.inr.inl => exact ⟨rfl, rfl⟩

end Sys2Proof.Machine

open Sys2Proof.Machine

/-- Settles O51, by what a Step transaction keeps (`afterStep_keeps`) and what a step that goes on keeps (`step_keeps`). -/
theorem stepsNeverWriteKeysOrParameters : Obligations.StepsNeverWriteKeysOrParameters := by
  refine ⟨afterStep_keeps, fun s t h => ?_⟩
  obtain ⟨-, -, hf⟩ := step_keeps s t h
  exact hf

end

section
/-! What an instruction that goes on leaves unchanged, field by field (10_state.md). -/

namespace Sys2Proof.Machine

variable {i : Instr} {s t : State}

/-- For each field of 10_state.md the instructions that may write it; under every other instruction it is as on entry. -/
structure ExecFrame (i : Instr) (s t : State) : Prop where
  i_kept : (∀ nnn, i ≠ .ldI nnn) → (∀ x, i ≠ .addI x) → (∀ x, i ≠ .ldF x) → t.i = s.i
  pc_kept : mayMovePc i = false → t.pc = s.pc
  sp_kept : (∀ nnn, i ≠ .call nnn) → i ≠ .ret → t.sp = s.sp
  stack_kept : (∀ nnn, i ≠ .call nnn) → t.stack = s.stack
  disp_kept : i ≠ .cls → (∀ x y n, i ≠ .drw x y n) → t.disp = s.disp
  dt_kept : (∀ x, i ≠ .ldDtVx x) → t.dt = s.dt
  st_kept : (∀ x, i ≠ .ldStVx x) → t.st = s.st
  kw_kept : (∀ x, i ≠ .ldVxK x) → t.kw = s.kw
  draws_kept : (∀ x kk, i ≠ .rnd x kk) → t.draws = s.draws

/-- Each instruction's update, as `exec_next_writes` gives it, names no field that another instruction owns. -/
theorem exec_frame (h : exec i s = .next t) : ExecFrame i s t := by
  have hw := exec_next_writes i s t h
  cases i
  case ldVxK => obtain ⟨e, -⟩ | e := hw <;> rw [e] <;> constructor <;> simp [mayMovePc]
  case call | ldB | ldMemVx => obtain ⟨e, -⟩ := hw; rw [e]; constructor <;> simp [mayMovePc]
  all_goals
    simp only [execWrites] at hw
    rw [hw]
    constructor <;> simp [mayMovePc]

/-- A push writes at the old stack pointer, so no entry below it changes, and only CALL pushes (R27). -/
theorem exec_stack_below (h : exec i s = .next t) (j : Nat) (hj : j < 16) (hlt : j < s.sp.val) :
    t.stack[j] = s.stack[j] := by
  by_cases hc : ∃ nnn, i = .call nnn
  · obtain ⟨nnn, rfl⟩ := hc
    obtain ⟨-, below⟩ := exec_next_writes _ s t h
    exact below j hj hlt
  · have e : t.stack = s.stack := (exec_frame h).stack_kept fun nnn e => hc ⟨nnn, e⟩
    simp only [e]

theorem State.getV_congr {s t : State} (e : t.v = s.v) (q : RegIdx) : t.getV q = s.getV q := by
  simp only [State.getV, e]

theorem State.setFlagThenV_getV_other (s : State) {x q : RegIdx} (f b : Byte) (hx : q ≠ x) (hf : q ≠ flagReg) :
    (s.setFlagThenV x f b).getV q = s.getV q := by
  rw [State.setFlagThenV_getV, if_neg hx, if_neg hf]

/-- LD Vx,K writes no register but `V[x]` in any of its four cases (R173). -/
theorem execLdVxK_getV_other {x q : RegIdx} (h : exec (.ldVxK x) s = .next t) (hq : q ≠ x) : t.getV q = s.getV q := by
  simp only [exec, execLdVxK] at h
  split at h
  case h_1 => split at h <;> cases h <;> rfl
  case h_2 k _ =>
    split at h <;> cases h
    · rfl
    · exact State.setV_getV_other s x q (BitVec.ofNat 8 k.val) hq

/-- A register that the destination field does not name, and that is not VF under a flag writer, is kept (R20, R21). -/
theorem exec_getV_kept {q : RegIdx} (h : exec i s = .next t) (hq : namesDestination i q = false)
    (hf : q = flagReg → writesFlag i = false) : t.getV q = s.getV q := by
  have hw := exec_next_writes i s t h
  cases i
  case drw x y n =>
    obtain ⟨-, others⟩ := execDrw_frame s t x y n h
    exact others q fun e => nomatch hf e
  case ldVxMem x =>
    obtain ⟨-, above⟩ := execLdVxMem_frame s t x h
    exact above q (by simpa [namesDestination] using hq)
  case ldImm | addImm | ldReg | orReg | andReg | xorReg | ldVxDt | rnd =>
    cases h
    exact State.setV_getV_other _ _ _ _ (of_decide_eq_false hq)
  case addReg | sub | shr | subn | shl =>
    cases h
    exact State.setFlagThenV_getV_other _ _ _ (of_decide_eq_false hq) fun e => nomatch hf e
  case ldVxK x => exact execLdVxK_getV_other h (of_decide_eq_false hq)
  case call | ldB | ldMemVx =>
    obtain ⟨e, -⟩ := hw
    exact State.getV_congr (congrArg State.v e) q
  all_goals exact State.getV_congr (congrArg State.v hw) q

end Sys2Proof.Machine

open Sys2Proof Sys2Proof.Machine

/-- Settles O44 (`exec_getV_kept`). -/
theorem onlyNamedRegistersAndTheFlagChange : Obligations.OnlyNamedRegistersAndTheFlagChange :=
  fun _ _ _ _ h hq hf => exec_getV_kept h hq hf

/-- Settles O45 (`exec_frame`). -/
theorem onlyIndexInstructionsChangeI : Obligations.OnlyIndexInstructionsChangeI :=
  fun _ _ _ h => (exec_frame h).i_kept

/-- Settles O47 (`exec_frame`): equal displays have equal pixels. -/
theorem onlyClsAndDrwChangeTheDisplay : Obligations.OnlyClsAndDrwChangeTheDisplay := by
  intro i s t h hcls hdrw c r
  have e : t.disp = s.disp := (exec_frame h).disp_kept hcls hdrw
  simp only [State.pixel, e]

/-- Settles O48 (`exec_frame`, and `exec_stack_below` for the entries under a CALL). -/
theorem onlyCallAndRetChangeTheStack : Obligations.OnlyCallAndRetChangeTheStack :=
  fun _ _ _ h => ⟨(exec_frame h).sp_kept, (exec_frame h).stack_kept, exec_stack_below h⟩

/-- Settles O49 (`exec_frame`). -/
theorem timersKeyWaitAndDrawsHaveOneWriter : Obligations.TimersKeyWaitAndDrawsHaveOneWriter := by
  intro i s t h
  have k := exec_frame h
  exact ⟨k.dt_kept, k.st_kept, k.kw_kept, k.draws_kept⟩

/-- Settles O50 (`exec_frame`). -/
theorem straightLineInstructionsLeaveThePc : Obligations.StraightLineInstructionsLeaveThePc :=
  fun _ _ _ h => (exec_frame h).pc_kept

end

section
/-! No operation reads ST (R30, C9): each does the same whatever ST holds, and passes ST on. -/

namespace Sys2Proof.Machine

/-- The state with another value of the sound timer. -/
def State.withSt (s : State) (b : Byte) : State := { s with st := b }

/-- An outcome with its next state changed. -/
def mapNext (f : State → State) : Host.Outcome State Fault Refusal → Host.Outcome State Fault Refusal
  | .next s => .next (f s)
  | .fault r => .fault r
  | .refused r => .refused r

theorem toOutcome_map (f : State → State) (r : Except Fault State) : toOutcome (r.map f) = mapNext f (toOutcome r) := by
  cases r <;> rfl

variable (s : State) (b : Byte)

/-! ### What is read -/

@[simp] theorem State.withSt_getV (q : RegIdx) : (s.withSt b).getV q = s.getV q := rfl
@[simp] theorem State.withSt_pc : (s.withSt b).pc = s.pc := rfl
@[simp] theorem State.withSt_kw : (s.withSt b).kw = s.kw := rfl
@[simp] theorem State.withSt_pixel (c : Fin 64) (r : Fin 32) : (s.withSt b).pixel c r = s.pixel c r := rfl
@[simp] theorem State.withSt_keyDown (k : Fin 16) : (s.withSt b).keyDown k = s.keyDown k := rfl
@[simp] theorem State.withSt_lowestKey : (s.withSt b).lowestKey = s.lowestKey := rfl
@[simp] theorem State.withSt_indexed (k : Nat) : indexed (s.withSt b) k = indexed s k := rfl
@[simp] theorem memRead_withSt (a : Nat) : memRead (s.withSt b) a = memRead s a := rfl
@[simp] theorem keyIndex_withSt (v : Byte) : keyIndex (s.withSt b) v = keyIndex s v := rfl

/-! ### What is written -/

theorem State.withSt_skipIf (c : Bool) : (s.withSt b).skipIf c = (s.skipIf c).withSt b := by cases c <;> rfl

theorem pop_withSt : pop (s.withSt b) = (pop s).map fun r => (r.1, r.2.withSt b) := by
  by_cases h : 0 < s.sp.val <;> simp [pop, h, State.withSt, State.instrAddr, Except.map]

theorem push_withSt (w : Word) : push (s.withSt b) w = (push s w).map (·.withSt b) := by
  by_cases h : s.sp.val < 16 <;> simp [push, h, State.withSt, State.instrAddr, Except.map]

theorem memWrite_withSt (a : Nat) (v : Byte) : memWrite (s.withSt b) a v = (memWrite s a v).map (·.withSt b) := by
  by_cases h : 4096 ≤ a <;> simp [memWrite, h, State.withSt, State.instrAddr, Except.map]

theorem storeBytes_withSt (a : Nat) (bs : List Byte) :
    storeBytes (s.withSt b) a bs = (storeBytes s a bs).map (·.withSt b) := by
  induction bs generalizing s a with
  | nil => rfl
  | cons v bs ih =>
    simp only [storeBytes, memWrite_withSt]
    cases memWrite s a v with
    | ok t => exact ih t (a + 1)
    | error f => rfl

theorem loadRegisters_withSt (ks : List Nat) :
    loadRegisters (s.withSt b) ks = (loadRegisters s ks).map (·.withSt b) := by
  induction ks generalizing s with
  | nil => rfl
  | cons k ks ih =>
    simp only [loadRegisters, memRead_withSt, State.withSt_indexed]
    cases memRead s (indexed s k) with
    | ok v => exact ih (s.setV (rangeReg k) v)
    | error f => rfl

theorem drawBit_withSt (sx sy row col : Nat) (v : Byte) :
    drawBit sx sy row v (s.withSt b) col = (drawBit sx sy row v s col).withSt b := by
  by_cases hb : spriteBit v col = true
  · by_cases on : s.pixel (wrapColumn sx col) (wrapRow sy row) = true <;> simp [drawBit, hb, on] <;> rfl
  · simp [drawBit, hb]

theorem drawRow_withSt (sx sy row : Nat) (v : Byte) :
    drawRow sx sy row v (s.withSt b) = (drawRow sx sy row v s).withSt b :=
  List.foldl_hom (State.withSt · b) fun t col => drawBit_withSt t b sx sy row col v

theorem drawRows_withSt (sx sy : Nat) (rows : List Nat) :
    drawRows sx sy (s.withSt b) rows = (drawRows sx sy s rows).map (·.withSt b) := by
  induction rows generalizing s with
  | nil => rfl
  | cons row rows ih =>
    simp only [drawRows, memRead_withSt, State.withSt_indexed]
    cases memRead s (indexed s row) with
    | ok v => simpa only [drawRow_withSt] using ih (drawRow sx sy row v s)
    | error f => rfl

/-- An instruction other than LD ST,Vx does not read ST and passes it on. -/
theorem exec_withSt (i : Instr) (hi : ∀ x, i ≠ .ldStVx x) : exec i (s.withSt b) = mapNext (·.withSt b) (exec i s) := by
  cases i
  case ldStVx x => exact absurd rfl (hi x)
  case ret =>
    simp only [exec, execRet, pop_withSt]
    cases pop s <;> rfl
  case call nnn =>
    simp only [exec, execCall, push_withSt, State.withSt_pc]
    cases push s s.pc <;> rfl
  case seImm | sneImm | seReg | sneReg => exact congrArg Host.Outcome.next (s.withSt_skipIf b _)
  case skp x | sknp x =>
    simp only [exec, execSkp, execSknp, keyIndex_withSt, State.withSt_getV]
    cases keyIndex s (s.getV x) with
    | ok k => exact congrArg Host.Outcome.next (s.withSt_skipIf b _)
    | error f => rfl
  case ldVxK x =>
    simp only [exec, execLdVxK, State.withSt_kw, State.withSt_lowestKey, State.withSt_keyDown]
    cases s.kw with
    | idle => cases s.lowestKey <;> rfl
    | awaitingRelease k => cases hd : s.keyDown k <;> simp only [hd] <;> rfl
  case drw x y n =>
    exact (congrArg toOutcome (drawRows_withSt (s.setV flagReg 0) b _ _ _)).trans (toOutcome_map _ _)
  case ldB x | ldMemVx x =>
    exact (congrArg toOutcome (storeBytes_withSt s b _ _)).trans (toOutcome_map _ _)
  case ldVxMem x => exact (congrArg toOutcome (loadRegisters_withSt s b _)).trans (toOutcome_map _ _)
  all_goals rfl

end Sys2Proof.Machine

open Sys2Proof Sys2Proof.Machine

/-- Settles O54: LD ST,Vx overwrites ST without reading it, and every other instruction passes it on (`exec_withSt`). -/
theorem noInstructionReadsTheSoundTimer : Obligations.NoInstructionReadsTheSoundTimer := by
  intro i s b
  by_cases hi : ∃ x, i = .ldStVx x
  · obtain ⟨x, rfl⟩ := hi
    exact ⟨fun t h => ⟨t, h, rfl⟩, fun f h => nomatch h⟩
  · have e : exec i (s.withSt b) = mapNext (·.withSt b) (exec i s) := exec_withSt s b i fun x hx => hi ⟨x, hx⟩
    exact ⟨fun t h => ⟨t.withSt b, by rw [h] at e; exact e, rfl⟩, fun f h => by rw [h] at e; exact e⟩
end

section
/-! The step and the Step transaction (R53, R71, R201, R211), and the fault mark that stays (R35). -/

namespace Sys2Proof.Machine

variable {s t : State} {f : Fault}

/-- Two bytes that are an instruction are the bytes of a word that decodes to it (R53, R70). -/
theorem decode_of_decodeBytes_pair {hi lo : Byte} {i : Instr} {rest : List Byte}
    (h : decodeBytes [hi, lo] = .ok (i, rest)) : decode (wordOfBytes hi lo) = .ok i := by
  simp only [decodeBytes] at h
  split at h
  · next e => cases h; exact e
  · cases h

/-- A step executes the instruction its fetch decodes to, on the advanced state (R71). -/
theorem step_of_decode {i : Instr} (hf : s.faulted = none) (hp : s.pc.toNat + 1 < 4096)
    (hd : decode (wordOfBytes (s.byteAt s.pc.toNat) (s.byteAt (s.pc.toNat + 1))) = .ok i) :
    step s = exec i s.advance := by
  obtain ⟨f, hf', -⟩ | ⟨-, hp', -⟩ | ⟨-, -, j, hj, e⟩ | ⟨-, -, ⟨r, hr⟩, -⟩ := step_cases s
  · rw [hf] at hf'; cases hf'
  · omega
  · rw [hd] at hj; cases hj; exact e
  · rw [hd] at hr; cases hr

theorem step_of_faulted (h : s.faulted = some f) : step s = .fault f := by simp only [step, h]

theorem afterStep_of_faulted (h : s.faulted = some f) : afterStep s = .next (s, some f) := by
  simp [afterStep, step_of_faulted h, h]

/-- Once the Load is done, the Step call is the step transaction, in either phase (R234). -/
theorem Session.transact_step {ph : Phase} (hph : ph ≠ .created) (s : State) :
    (Session.mk s ph).transact .step = stepTransaction s := by
  cases ph
  case created => exact absurd rfl hph
  case loaded | stepped => rfl

theorem stepTransaction_of_next (h : step s = .next t) : stepTransaction s = .next (⟨t, .stepped⟩, .done) := by
  simp only [stepTransaction, afterStep, h]

theorem stepTransaction_of_fault (hf : s.faulted = none) (h : step s = .fault f) :
    stepTransaction s = .next (⟨s.afterFault f, .stepped⟩, .stopped f) := by
  simp [stepTransaction, afterStep, h, hf]

theorem stepTransaction_of_faulted (h : s.faulted = some f) :
    stepTransaction s = .next (⟨s, .stepped⟩, .stopped f) := by
  simp only [stepTransaction, afterStep_of_faulted h]

@[simp] theorem State.afterFault_faulted (s : State) (f : Fault) : (s.afterFault f).faulted = some f := rfl

theorem load_faulted (buf : List Byte) (s : State) : (load buf s).2.faulted = s.faulted := by
  unfold load
  split <;> rfl

/-- No call the host may make clears the fault mark (R35, R201). -/
theorem Session.transact_keeps_mark {x y : Session} {a : Transaction} {r : Response}
    (hx : x.machine.faulted = some f) (h : x.transact a = .next (y, r)) : y.machine.faulted = some f := by
  obtain ⟨buf, -, -, rfl, -⟩ | ⟨k, -, rfl, -⟩ | ⟨g, -, -, -, e, -⟩ | ⟨-, rfl, -⟩ | ⟨-, rfl, -⟩ | ⟨-, rfl, -⟩ :=
    Session.transact_next h
  case inr.inr.inl =>
    rw [afterStep_of_faulted hx] at e
    obtain ⟨hm, -⟩ : x.machine = y.machine ∧ some f = g := by simpa using e
    exact hm ▸ hx
  case inl => exact (load_faulted buf x.machine).trans hx
  all_goals exact hx

theorem Session.run_keeps_mark {sched : List Transaction} {x y : Session} (hx : x.machine.faulted = some f)
    (h : Session.run sched x = .next y) : y.machine.faulted = some f := by
  induction sched generalizing x with
  | nil => cases h; exact hx
  | cons a rest ih =>
    obtain ⟨z, r, hz, hrest⟩ := Session.run_cons_next h
    exact ih (Session.transact_keeps_mark hx hz) hrest

theorem soundOn_iff (s : State) : soundOn s = true ↔ s.st.toNat ≠ 0 := by
  simp [soundOn, ← BitVec.toNat_inj]

end Sys2Proof.Machine

open Sys2Proof Sys2Proof.Machine

/-- Settles O60: the two ways a Step transaction goes on, and no later call clears the mark (`Session.run_keeps_mark`). -/
theorem stepTransactionReportsTheStep : Obligations.StepTransactionReportsTheStep := by
  refine ⟨fun s ph hph => ⟨fun t h => ?_, fun f hf h => ?_⟩, fun sched x y f hx h => Session.run_keeps_mark hx h⟩
  · rw [Session.transact_step hph, stepTransaction_of_next h]
  · exact ⟨s.afterFault f, by rw [Session.transact_step hph, stepTransaction_of_fault hf h], s.afterFault_faulted f⟩

/-- Settles O6, by what the two bytes at `PC` decode to and the step's case for it (`step_of_decode`). -/
theorem stepRunsTheDecodedInstruction : Obligations.StepRunsTheDecodedInstruction :=
  fun _ _ hf hp hd => step_of_decode hf hp (decode_of_decodeBytes_pair hd)

/-- Settles O9: the step answers the mark, and the Step transaction leaves the machine as it is. -/
theorem faultedMachineTakesNoStep : Obligations.FaultedMachineTakesNoStep := by
  intro s f h
  refine ⟨step_of_faulted h, fun ph hph => ?_⟩
  rw [Session.transact_step hph, stepTransaction_of_faulted h]

/-- Settles O39: each of the three calls is accepted in every phase, and its effect is read off its definition. -/
theorem keyUpdateAndReadsTouchNothingElse : Obligations.KeyUpdateAndReadsTouchNothingElse := by
  intro x
  refine ⟨fun keys => ⟨⟨setKeys keys x.machine, x.phase⟩, rfl, rfl, rfl, fun _ => rfl⟩, ?_, ?_⟩
  · exact ⟨readDisplay x.machine, rfl, fun _ _ => rfl⟩
  · exact ⟨soundOn x.machine, rfl, soundOn_iff x.machine⟩

/-- Settles O55: reset memory lists nothing, and no key wait is pending. -/
theorem invariantHoldsAtReset : Obligations.InvariantHoldsAtReset where
  mem_wf := reset_mem_wf
  key_wait _ hkw := absurd rfl hkw
end

section
/-! Creation and the Load byte by byte (R231, R236), and the stack a CALL leaves (R27). -/

namespace Sys2Proof.Machine

variable (p : Params) (d : Draw)

/-- The font's region holds the glyph bytes (R231). -/
theorem create_byteAt_font (j : Nat) (h : j < 80) : (State.create p d).byteAt (p.fontBase.val + j) = p.fontData[j] := by
  have hin : p.fontBase.val ≤ p.fontBase.val + j ∧ p.fontBase.val + j < p.fontBase.val + p.fontData.toList.length := by
    simp [h]
  refine (Memory.read_writeBytes p _ _ _ _).trans ?_
  rw [dif_pos hin]
  simp

/-- Outside the font's region memory is as drawn (R36). -/
theorem create_byteAt_drawn {a : Nat} (ha : a < 4096) (hout : a < p.fontBase.val ∨ p.fontBase.val + 80 ≤ a) :
    (State.create p d).byteAt a = d.mem a := by
  refine (Memory.read_writeBytes p _ _ _ _).trans ?_
  rw [dif_neg (by simp; omega), Memory.read_ofBytes, if_pos ha]

/-- A buffer that fits is written at 0x200 (R236). -/
theorem load_of_fits {buf : List Byte} (h : buf.length ≤ 4096 - 0x200) (s : State) :
    load buf s = (true, { s with mem := Memory.writeBytes s.params s.mem loadOffset buf }) :=
  if_pos (decide_eq_true h)

/-- The program's bytes from 0x200 upward, in order (R236). -/
theorem writeBytes_byteAt_program (s : State) (buf : List Byte) (j : Nat) (h : j < buf.length) :
    State.byteAt { s with mem := Memory.writeBytes s.params s.mem loadOffset buf } (0x200 + j) = buf[j] := by
  have hin : loadOffset ≤ 0x200 + j ∧ 0x200 + j < loadOffset + buf.length := by simp [loadOffset, h]
  refine (Memory.read_writeBytes s.params _ _ _ _).trans ?_
  rw [dif_pos hin]
  simp [loadOffset]

/-- A Load leaves every byte outside its range (R236). -/
theorem writeBytes_byteAt_other (s : State) (buf : List Byte) {a : Nat} (h : a < 0x200 ∨ 0x200 + buf.length ≤ a) :
    State.byteAt { s with mem := Memory.writeBytes s.params s.mem loadOffset buf } a = s.byteAt a := by
  refine (Memory.read_writeBytes s.params _ _ _ _).trans ?_
  rw [dif_neg (by simp only [loadOffset]; omega)]
  rfl

/-- What CALL leaves (R27, R103). -/
theorem execCall_next (nnn : Addr) (s : State) (h : s.sp.val < 16) :
    exec (.call nnn) s = .next (State.jump
      { s with stack := s.stack.set s.sp.val s.pc h, sp := ⟨s.sp.val + 1, by omega⟩ } (zext16 nnn)) := by
  simp only [exec, execCall, push, dif_pos h]

/-- What RET leaves (R27, R101). -/
theorem execRet_next (s : State) (h : 0 < s.sp.val) :
    exec .ret s = .next (State.jump { s with sp := ⟨s.sp.val - 1, by omega⟩ } (s.stack[s.sp.val - 1]'(by omega))) := by
  simp only [exec, execRet, pop, dif_pos h]

end Sys2Proof.Machine

open Sys2Proof Sys2Proof.Machine

/-- Settles O13: RET takes the entry just below the stack pointer, which is where CALL wrote the advanced `PC`. -/
theorem retReturnsAfterItsCall : Obligations.RetReturnsAfterItsCall := by
  intro nnn s h
  refine ⟨_, execCall_next nnn s h, fun u hstack hsp => ?_⟩
  have hpos : 0 < u.sp.val := by rw [hsp]; exact Nat.succ_pos s.sp.val
  exact ⟨_, execRet_next u hpos, by simp [hstack, hsp], by simp [hsp]⟩

/-- Settles O42. The font lies below 0x200 (`Params.fontBase`), so the Load never meets it. -/
theorem creationInstallsTheFontAndTheEntryPoint : Obligations.CreationInstallsTheFontAndTheEntryPoint := by
  intro p d
  have hbase := p.fontBase.isLt
  refine ⟨rfl, rfl, rfl, rfl, rfl, create_byteAt_font p d, fun a => create_byteAt_drawn p d, fun _ => rfl, rfl, rfl, rfl,
    fun _ _ => rfl, fun _ => rfl, fun _ _ => rfl, rfl, fun buf hbuf => ?_⟩
  refine ⟨_, load_of_fits hbuf _, rfl, writeBytes_byteAt_program _ buf, fun j hj => ?_, fun a ha hfont hprog => ?_⟩
  · rw [writeBytes_byteAt_other _ buf (.inl (by omega)), create_byteAt_font]
  · rw [writeBytes_byteAt_other _ buf hprog, create_byteAt_drawn p d ha hfont]
end

section
/-! Memory as an instruction leaves it (R52 to R58): the bytes stored at `I` upward, and the next
fetch over them (R62). -/

namespace Sys2Proof.Machine

variable {i : Instr} {s t : State}

/-- Bytes stored from an address upward read back there, and every other byte is as before (R52, R56). -/
theorem State.byteAt_writeBytes (s : State) (a k : Nat) (bs : List Byte) :
    State.byteAt { s with mem := Memory.writeBytes s.params s.mem a bs } k =
      if h : a ≤ k ∧ k < a + bs.length then bs[k - a]'(by omega) else s.byteAt k :=
  Memory.read_writeBytes s.params s.mem a k bs

@[simp] theorem length_bcdDigits (b : Byte) : (bcdDigits b).length = 3 := rfl

@[simp] theorem length_registersThrough (s : State) (x : RegIdx) : (registersThrough s x).length = x.toNat + 1 := by
  simp [registersThrough]

@[simp] theorem getElem_registersThrough (s : State) (x : RegIdx) (k : Nat) (h : k < (registersThrough s x).length) :
    (registersThrough s x)[k] = s.getV (rangeReg k) := by
  simp [registersThrough]

/-- The memory of every instruction that goes on is that on entry with `bytesStored i` bytes written at `I` upward. -/
theorem exec_mem (h : exec i s = .next t) :
    ∃ bs : List Byte, bs.length = bytesStored i ∧ t.mem = Memory.writeBytes s.params s.mem (indexed s 0) bs := by
  have hw := exec_next_writes i s t h
  cases i
  case ldB x =>
    obtain ⟨e, -⟩ := hw
    exact ⟨bcdDigits (s.getV x), rfl, congrArg State.mem e⟩
  case ldMemVx x =>
    obtain ⟨e, -⟩ := hw
    exact ⟨registersThrough s x, length_registersThrough s x, congrArg State.mem e⟩
  case call =>
    obtain ⟨e, -⟩ := hw
    exact ⟨[], rfl, (congrArg State.mem e :)⟩
  case ldVxK =>
    obtain ⟨e, -⟩ | e := hw <;> exact ⟨[], rfl, (congrArg State.mem e :)⟩
  all_goals
    simp only [execWrites] at hw
    exact ⟨[], rfl, (congrArg State.mem hw :)⟩

/-- A byte outside the range an instruction stores is kept (R52, R54, R56). -/
theorem exec_byteAt_kept (h : exec i s = .next t) {a : Nat}
    (ha : ¬ (indexed s 0 ≤ a ∧ a < indexed s 0 + bytesStored i)) : t.byteAt a = s.byteAt a := by
  obtain ⟨bs, hlen, hmem⟩ := exec_mem h
  obtain ⟨-, hparams, -⟩ := exec_keeps i s t h
  rw [State.byteAt, hparams, hmem, Memory.read_writeBytes, dif_neg (by rw [hlen]; exact ha), State.byteAt]

/-- Stores that end below 4096 are all made (R58). -/
theorem storeBytes_of_fits {a : Nat} {bs : List Byte} (h : a + bs.length ≤ 4096) :
    storeBytes s a bs = .ok { s with mem := Memory.writeBytes s.params s.mem a bs } := by
  obtain ⟨-, e⟩ | ⟨-, hlt, -⟩ := storeBytes_cases s a bs
  · exact e
  · omega

/-- What LD B leaves when its three addresses are in memory (R143). -/
theorem execLdB_next {x : RegIdx} (h : s.i.toNat + 2 < 4096) :
    exec (.ldB x) s =
      .next { s with mem := Memory.writeBytes s.params s.mem s.i.toNat (bcdDigits (s.getV x)) } := by
  simp only [exec, execLdB, indexed, Nat.add_zero, toOutcome,
    storeBytes_of_fits (s := s) (bs := bcdDigits (s.getV x)) (show s.i.toNat + 3 ≤ 4096 by omega)]

/-- What LD [I],Vx leaves when its addresses are in memory (R144). -/
theorem execLdMemVx_next {x : RegIdx} (h : s.i.toNat + x.toNat < 4096) :
    exec (.ldMemVx x) s =
      .next { s with mem := Memory.writeBytes s.params s.mem s.i.toNat (registersThrough s x) } := by
  have hfits : s.i.toNat + (registersThrough s x).length ≤ 4096 := by rw [length_registersThrough]; omega
  simp only [exec, execLdMemVx, indexed, Nat.add_zero, toOutcome, storeBytes_of_fits hfits]

theorem wordOfBytes_toNat (hi lo : Byte) : (wordOfBytes hi lo).toNat = hi.toNat * 256 + lo.toNat := append_toNat hi lo

theorem fetch_of_lt (h : s.pc.toNat + 1 < 4096) :
    fetch s = .ok (wordOfBytes (s.byteAt s.pc.toNat) (s.byteAt (s.pc.toNat + 1))) := by
  obtain ⟨-, e⟩ | ⟨hge, -⟩ := fetch_cases s
  · exact e
  · omega

/-- A fetch past memory ends the step of an unfaulted machine (R53). -/
theorem step_of_fetch_past (h : 4096 ≤ s.pc.toNat + 1) (hf : s.faulted = none) :
    step s = .fault (.fetchRange s.pc.toNat s.pc) := by
  obtain ⟨f, hf', -⟩ | ⟨-, -, e⟩ | ⟨-, hlt, -⟩ | ⟨-, hlt, -⟩ := step_cases s
  · rw [hf] at hf'; cases hf'
  · exact e
  all_goals omega

/-- A fetch over bytes stored at `PC` upward is of the first two of them: nothing holds an older copy (R62, R241). -/
theorem fetch_writeBytes_at_pc {a : Nat} {bs : List Byte} (ha : s.pc.toNat = a) (hlt : a + 1 < 4096)
    (hlen : 2 ≤ bs.length) :
    fetch { s with mem := Memory.writeBytes s.params s.mem a bs } = .ok (wordOfBytes bs[0] bs[1]) := by
  subst ha
  have h0 : 0 < bs.length := by omega
  have h1 : 1 < bs.length := by omega
  rw [fetch_of_lt (by exact hlt), State.byteAt_writeBytes, State.byteAt_writeBytes]
  simp [h0, h1]

end Sys2Proof.Machine

open Sys2Proof Sys2Proof.Machine

/-- Settles O46: an address that is `I + k` for no `k` below the number of stored bytes is outside their range. -/
theorem memoryChangesOnlyAtTheStoredBytes : Obligations.MemoryChangesOnlyAtTheStoredBytes := by
  intro i s t h a ha
  refine exec_byteAt_kept h fun ⟨hle, hlt⟩ => ?_
  simp only [indexed, Nat.add_zero] at hle hlt
  exact ha (a - s.i.toNat) (by omega) (by simp only [indexed]; omega)

/-- Settles O8, by the two cases of a fetch. -/
theorem fetchIsBigEndianAndRangeChecked : Obligations.FetchIsBigEndianAndRangeChecked :=
  fun _ => ⟨fun h => ⟨_, fetch_of_lt h, wordOfBytes_toNat _ _⟩, step_of_fetch_past⟩

/-- Settles O29: both instructions store at `I`, which is where the next fetch reads (`fetch_writeBytes_at_pc`). -/
theorem nextFetchSeesStoredBytes : Obligations.NextFetchSeesStoredBytes := by
  intro x s hpc
  have hi : s.pc.toNat = s.i.toNat := congrArg BitVec.toNat hpc
  refine ⟨fun hx hfits => ⟨_, execLdMemVx_next hfits, ?_⟩, fun hfits => ⟨_, execLdB_next hfits, ?_⟩⟩
  · have hlen : 2 ≤ (registersThrough s x).length := by rw [length_registersThrough]; omega
    rw [fetch_writeBytes_at_pc hi (by omega) hlen]
    simp [rangeReg]
  · have hlen : 2 ≤ (bcdDigits (s.getV x)).length := by simp
    refine ⟨_, fetch_writeBytes_at_pc hi (by omega) hlen, ?_⟩
    simp only [wordOfBytes_toNat, bcdDigits, List.getElem_cons_zero, List.getElem_cons_succ, BitVec.toNat_ofNat]
    omega
end

section
/-! The invariant over one step (R60, R243): memory stays canonical, and a pending key wait stays at its LD Vx,K. -/

namespace Sys2Proof.Machine

variable {s t : State}

/-- A faulted machine takes no step, so one that goes on was unfaulted (R71, R201). -/
theorem unfaulted_of_step_next (h : step s = .next t) : s.faulted = none := by
  cases hm : s.faulted with
  | none => rfl
  | some f => rw [step_of_faulted hm] at h; cases h

/-- A step that goes on keeps memory's canonical form. -/
theorem step_mem_wf (w : Memory.wf s.params s.mem = true) (h : step s = .next t) :
    Memory.wf t.params t.mem = true := by
  obtain ⟨f, -, e⟩ | ⟨-, -, e⟩ | ⟨-, -, i, -, e⟩ | ⟨-, -, -, e⟩ := step_cases s <;> rw [e] at h
  case inl | inr.inl => cases h
  case inr.inr.inl => exact exec_mem_wf s.advance t i w h
  case inr.inr.inr => cases h; exact w

/-- An LD Vx,K that leaves a wait pending rolls `PC` back to itself and changes no byte (R173). -/
theorem execLdVxK_pending {x : RegIdx} (h : exec (.ldVxK x) s.advance = .next t) (hkw : t.kw ≠ .idle) :
    t.pc = s.pc ∧ ∀ a, t.byteAt a = s.byteAt a := by
  obtain ⟨-, hidle⟩ | e := exec_next_writes _ _ _ h
  · exact absurd hidle hkw
  · rw [e]
    exact ⟨by simp, fun _ => rfl⟩

/-- Every step keeps a pending key wait at `PC`. The instruction at `PC` is an LD Vx,K, which rolls `PC` back while it
waits, or it is another one; that one leaves the wait as it was, and a wait pending there would make it an LD Vx,K
(R243). -/
theorem step_keyWaitAtPc (hw : keyWaitAtPc s) (h : step s = .next t) : keyWaitAtPc t := by
  intro hkw
  obtain ⟨f, -, e⟩ | ⟨-, -, e⟩ | ⟨-, hp, i, hd, e⟩ | ⟨-, hp, ⟨r, hr⟩, e⟩ := step_cases s <;> rw [e] at h
  case inl | inr.inl => cases h
  case inr.inr.inl =>
    by_cases hi : ∃ x, i = .ldVxK x
    · obtain ⟨x, rfl⟩ := hi
      obtain ⟨hpc, hbyte⟩ := execLdVxK_pending h hkw
      rw [hpc, hbyte, hbyte]
      exact ⟨hp, x, hd⟩
    · have hkept : t.kw = s.kw := (exec_frame h).kw_kept fun x hx => hi ⟨x, hx⟩
      obtain ⟨-, x, hx⟩ := hw (hkept ▸ hkw)
      rw [hd] at hx
      cases hx
      exact absurd ⟨x, rfl⟩ hi
  case inr.inr.inr =>
    cases h
    obtain ⟨-, x, hx⟩ := hw hkw
    rw [hr] at hx
    cases hx

end Sys2Proof.Machine

open Sys2Proof.Machine

/-- Settles O56: the two clauses of the invariant, each kept by every step (`step_mem_wf`, `step_keyWaitAtPc`). -/
theorem stepKeepsTheInvariant : Obligations.StepKeepsTheInvariant :=
  fun _ _ hs h => ⟨step_mem_wf hs.mem_wf h, fun _ => step_keyWaitAtPc (hs.key_wait (unfaulted_of_step_next h)) h⟩
end

section
/-! The encoder and the decoder against each other (R72 to R75): the fields and the tag of an encoded word, and the word
of a decoded instruction. -/

namespace Sys2Proof

/-! ### The fields of a word of each format -/

theorem field_eq_of_toNat {w : Word} {lo len : Nat} {a : BitVec len} (h : w.toNat / 2 ^ lo % 2 ^ len = a.toNat) :
    w.extractLsb' lo len = a :=
  BitVec.eq_of_toNat_eq ((field_toNat w lo len).trans h)

theorem formatA_op (op : BitVec 4) (nnn : Addr) : (formatA op nnn).extractLsb' 12 4 = op :=
  field_eq_of_toNat (by rw [formatA_toNat]; omega)

theorem formatA_nnn (op : BitVec 4) (nnn : Addr) : (formatA op nnn).extractLsb' 0 12 = nnn :=
  field_eq_of_toNat (by rw [formatA_toNat]; omega)

theorem formatA_fields (w : Word) : formatA (w.extractLsb' 12 4) (w.extractLsb' 0 12) = w := by
  apply BitVec.eq_of_toNat_eq
  simp only [field_toNat, formatA_toNat, Nat.reducePow]
  omega

theorem formatXK_op (op : BitVec 4) (x : RegIdx) (kk : Byte) : (formatXK op x kk).extractLsb' 12 4 = op :=
  field_eq_of_toNat (by rw [formatXK_toNat]; omega)

theorem formatXK_x (op : BitVec 4) (x : RegIdx) (kk : Byte) : (formatXK op x kk).extractLsb' 8 4 = x :=
  field_eq_of_toNat (by rw [formatXK_toNat]; omega)

theorem formatXK_kk (op : BitVec 4) (x : RegIdx) (kk : Byte) : (formatXK op x kk).extractLsb' 0 8 = kk :=
  field_eq_of_toNat (by rw [formatXK_toNat]; omega)

theorem formatXF_x (op : BitVec 4) (x : RegIdx) (f : Byte) : (formatXF op x f).extractLsb' 8 4 = x := formatXK_x op x f

theorem formatXYN_op (op : BitVec 4) (x y : RegIdx) (n : BitVec 4) : (formatXYN op x y n).extractLsb' 12 4 = op :=
  field_eq_of_toNat (by rw [formatXYN_toNat]; omega)

theorem formatXYN_x (op : BitVec 4) (x y : RegIdx) (n : BitVec 4) : (formatXYN op x y n).extractLsb' 8 4 = x :=
  field_eq_of_toNat (by rw [formatXYN_toNat]; omega)

theorem formatXYN_y (op : BitVec 4) (x y : RegIdx) (n : BitVec 4) : (formatXYN op x y n).extractLsb' 4 4 = y :=
  field_eq_of_toNat (by rw [formatXYN_toNat]; omega)

theorem formatXYN_n (op : BitVec 4) (x y : RegIdx) (n : BitVec 4) : (formatXYN op x y n).extractLsb' 0 4 = n :=
  field_eq_of_toNat (by rw [formatXYN_toNat]; omega)

/-! ### Decoding an encoded instruction -/

open Laws in
/-- Every instruction's word belongs to the row of its own tag (R74, R75). -/
theorem encode_matches_row : ∀ i : Instr, EncodeRow.Statement i
  | .cls => EncodeRow.cls
  | .ret => EncodeRow.ret
  | .jp nnn => EncodeRow.jp nnn
  | .call nnn => EncodeRow.call nnn
  | .seImm x kk => EncodeRow.seImm x kk
  | .sneImm x kk => EncodeRow.sneImm x kk
  | .seReg x y => EncodeRow.seReg x y
  | .ldImm x kk => EncodeRow.ldImm x kk
  | .addImm x kk => EncodeRow.addImm x kk
  | .ldReg x y => EncodeRow.ldReg x y
  | .orReg x y => EncodeRow.orReg x y
  | .andReg x y => EncodeRow.andReg x y
  | .xorReg x y => EncodeRow.xorReg x y
  | .addReg x y => EncodeRow.addReg x y
  | .sub x y => EncodeRow.sub x y
  | .shr x y => EncodeRow.shr x y
  | .subn x y => EncodeRow.subn x y
  | .shl x y => EncodeRow.shl x y
  | .sneReg x y => EncodeRow.sneReg x y
  | .ldI nnn => EncodeRow.ldI nnn
  | .jpV0 nnn => EncodeRow.jpV0 nnn
  | .rnd x kk => EncodeRow.rnd x kk
  | .drw x y n => EncodeRow.drw x y n
  | .skp x => EncodeRow.skp x
  | .sknp x => EncodeRow.sknp x
  | .ldVxDt x => EncodeRow.ldVxDt x
  | .ldVxK x => EncodeRow.ldVxK x
  | .ldDtVx x => EncodeRow.ldDtVx x
  | .ldStVx x => EncodeRow.ldStVx x
  | .addI x => EncodeRow.addI x
  | .ldF x => EncodeRow.ldF x
  | .ldB x => EncodeRow.ldB x
  | .ldMemVx x => EncodeRow.ldMemVx x
  | .ldVxMem x => EncodeRow.ldVxMem x

theorem tagOf_encode (i : Instr) : tagOf (encode i) = i.opcode := by
  obtain ⟨r, hr, ht, hm⟩ := encode_matches_row i
  exact (tagOf_of_matches hr hm).trans ht

/-- The tag of an encoded instruction selects its constructor, and the fields of its format are its operands. -/
theorem toInstr_decodeFields_encode (i : Instr) : (decodeFields (encode i)).toInstr = some i := by
  have ht := tagOf_encode i
  cases i <;> simp only [Decoded.toInstr, decodeFields, ht, Instr.opcode]
  case jp | call | ldI | jpV0 => rw [encode, formatA_nnn]
  case seImm | sneImm | ldImm | addImm | rnd => rw [encode, formatXK_x, formatXK_kk]
  case seReg | ldReg | orReg | andReg | xorReg | addReg | sub | shr | subn | shl | sneReg =>
    rw [encode, formatXYN_x, formatXYN_y]
  case drw => rw [encode, formatXYN_x, formatXYN_y, formatXYN_n]
  case skp | sknp | ldVxDt | ldVxK | ldDtVx | ldStVx | addI | ldF | ldB | ldMemVx | ldVxMem => rw [encode, formatXF_x]

theorem decode_encode (i : Instr) : decode (encode i) = .ok i := by
  simp only [decode, toInstr_decodeFields_encode]

theorem decodeBytes_encodeBytes (i : Instr) (rest : List Byte) :
    decodeBytes (encodeBytes i ++ rest) = .ok (i, rest) := by
  simp only [encodeBytes, List.cons_append, List.nil_append, decodeBytes, wordOfBytes_split, decode_encode]

/-! ### Encoding a decoded word -/

/-- No two rows of R75's table share a tag, and none has the tag UNKNOWN. -/
theorem opcodeTable_tags : (∀ r ∈ opcodeTable, ∀ q ∈ opcodeTable, r.tag = q.tag → r = q) ∧
    ∀ r ∈ opcodeTable, r.tag ≠ .unknown := by decide

/-- A word with the tag of a row has the row's pattern under its mask (R75). -/
theorem and_mask_of_tagOf {t : Opcode} {p m w : Word} (hr : (⟨t, p, m⟩ : Row) ∈ opcodeTable) (ht : tagOf w = t) :
    w &&& m = p := by
  obtain ⟨tags, known⟩ := opcodeTable_tags
  obtain ⟨q, hq, hw, hqt⟩ | ⟨hu, -⟩ := tagOf_cases w
  · have e : q = ⟨t, p, m⟩ := tags q hq _ hr (hqt.symm.trans ht)
    simpa [Row.matches, e] using hw
  · exact absurd (ht.symm.trans hu) (known _ hr)

variable {w : Word} {op : BitVec 4}

/-- A field that a mask selects whole is that of the pattern. -/
theorem field_of_mask {m p : Word} {lo len : Nat} (h : w &&& m = p)
    (hm : m.extractLsb' lo len = BitVec.allOnes len) : w.extractLsb' lo len = p.extractLsb' lo len := by
  rw [← h, BitVec.extractLsb'_and, hm, BitVec.and_allOnes]

theorem formatA_of_mask (h : w &&& 0xF000 = formatA op 0) : formatA op (w.extractLsb' 0 12) = w := by
  have hop := (field_of_mask (lo := 12) (len := 4) h rfl).trans (formatA_op op 0)
  rw [← hop, formatA_fields]

theorem formatXK_of_mask (h : w &&& 0xF000 = formatXK op 0 0) :
    formatXK op (w.extractLsb' 8 4) (w.extractLsb' 0 8) = w := by
  have hop := (field_of_mask (lo := 12) (len := 4) h rfl).trans (formatXK_op op 0 0)
  rw [← hop]
  exact formatXF_fields w

theorem formatXF_of_mask {f : Byte} (h : w &&& 0xF0FF = formatXF op 0 f) : formatXF op (w.extractLsb' 8 4) f = w := by
  have hop := (field_of_mask (lo := 12) (len := 4) h rfl).trans (formatXK_op op 0 f)
  have hf := (field_of_mask (lo := 0) (len := 8) h rfl).trans (formatXK_kk op 0 f)
  rw [← hop, ← hf, formatXF_fields]

theorem formatXYN_of_mask (h : w &&& 0xF000 = formatXYN op 0 0 0) :
    formatXYN op (w.extractLsb' 8 4) (w.extractLsb' 4 4) (w.extractLsb' 0 4) = w := by
  have hop := (field_of_mask (lo := 12) (len := 4) h rfl).trans (formatXYN_op op 0 0 0)
  rw [← hop, formatXYN_fields]

theorem formatXYF_of_mask {f : BitVec 4} (h : w &&& 0xF00F = formatXYN op 0 0 f) :
    formatXYN op (w.extractLsb' 8 4) (w.extractLsb' 4 4) f = w := by
  have hop := (field_of_mask (lo := 12) (len := 4) h rfl).trans (formatXYN_op op 0 0 f)
  have hf := (field_of_mask (lo := 0) (len := 4) h rfl).trans (formatXYN_n op 0 0 f)
  rw [← hop, ← hf, formatXYN_fields]

/-- Per format, the mask of a row and the operand fields together cover the word. -/
theorem encode_of_toInstr {i : Instr} (h : (decodeFields w).toInstr = some i) : encode i = w := by
  cases ht : tagOf w <;> simp only [Decoded.toInstr, decodeFields, ht] at h <;> cases h
  case cls | ret => exact (and_mask_of_tagOf (by decide) ht).symm.trans BitVec.and_allOnes
  case jp | call | ldI | jpV0 => exact formatA_of_mask (and_mask_of_tagOf (by decide) ht)
  case seImm | sneImm | ldImm | addImm | rnd => exact formatXK_of_mask (and_mask_of_tagOf (by decide) ht)
  case seReg | ldReg | orReg | andReg | xorReg | addReg | sub | shr | subn | shl | sneReg =>
    exact formatXYF_of_mask (and_mask_of_tagOf (by decide) ht)
  case drw => exact formatXYN_of_mask (and_mask_of_tagOf (by decide) ht)
  case skp | sknp | ldVxDt | ldVxK | ldDtVx | ldStVx | addI | ldF | ldB | ldMemVx | ldVxMem =>
    exact formatXF_of_mask (and_mask_of_tagOf (by decide) ht)

theorem encode_of_decode {i : Instr} (h : decode w = .ok i) : encode i = w := by
  obtain ⟨j, hj, e⟩ | ⟨-, e⟩ := decode_cases w <;> rw [e] at h <;> cases h
  exact encode_of_toInstr hj

end Sys2Proof

open Sys2Proof

/-- Settles O2 (`decode_encode`, `decodeBytes_encodeBytes`). -/
theorem decodeOfEncodeIsIdentity : Obligations.DecodeOfEncodeIsIdentity :=
  fun i => ⟨decode_encode i, decodeBytes_encodeBytes i⟩

/-- Settles O3 (`encode_of_decode`). -/
theorem encodeOfDecodeIsIdentity : Obligations.EncodeOfDecodeIsIdentity := fun _ _ => encode_of_decode
end

section
/-! R75's table as a whole: its rows exclude each other (R78), and the words outside it are R77's groups. -/

namespace Sys2Proof

theorem Row.apart_symm {r q : Row} (h : r.apart q = true) : q.apart r = true := by
  rwa [Row.apart, BitVec.xor_comm, BitVec.and_comm q.mask]

/-- `opcodeTable_apart` in either order of the two rows (R78). -/
theorem apart_of_ne {r q : Row} (hr : r ∈ opcodeTable) (hq : q ∈ opcodeTable) (h : r ≠ q) : r.apart q = true := by
  have symm : Std.Symm fun r q : Row => r.apart q = true := ⟨fun _ _ => Row.apart_symm⟩
  exact List.Pairwise.forall opcodeTable_apart hr hq h

theorem row_unique {w : Word} {r q : Row} (hr : r ∈ opcodeTable) (hq : q ∈ opcodeTable) (hrw : r.matches w = true)
    (hqw : q.matches w = true) : r = q := by
  by_contra hne
  have := Row.apart_not_both (apart_of_ne hr hq hne) w hrw
  rw [hqw] at this
  cases this

theorem Decoded.toInstr_eq_none_iff (d : Decoded) : d.toInstr = none ↔ d.tag = .unknown := by
  cases h : d.tag <;> simp [Decoded.toInstr, h]

variable (w : Word)

theorem decode_eq_unknown_iff_toInstr : decode w = .error (.unknown w) ↔ (decodeFields w).toInstr = none := by
  obtain ⟨i, hi, e⟩ | ⟨hn, e⟩ := decode_cases w
  · simp [e, hi]
  · simp [e, hn]

theorem tagOf_eq_unknown_iff : tagOf w = .unknown ↔ ∀ r ∈ opcodeTable, r.matches w = false := by
  obtain ⟨r, hr, hw, e⟩ | ⟨e, h⟩ := tagOf_cases w
  · obtain ⟨-, known⟩ := opcodeTable_tags
    exact ⟨fun hu => absurd (e.symm.trans hu) (known r hr), fun h => by rw [h r hr] at hw; cases hw⟩
  · exact ⟨fun _ => h, fun _ => e⟩

/-- A word is rejected by its own name exactly when it matches no row (R75, R76). -/
theorem decode_eq_unknown_iff : decode w = .error (.unknown w) ↔ ∀ r ∈ opcodeTable, r.matches w = false :=
  (decode_eq_unknown_iff_toInstr w).trans (((decodeFields w).toInstr_eq_none_iff).trans (tagOf_eq_unknown_iff w))

/-! ### The words that match no row of a part of the table, by the number of their op -/

theorem Row.not_matches_iff (r : Row) : r.matches w = false ↔ (w &&& r.mask).toNat ≠ r.pattern.toNat := by
  simp [Row.matches, ← BitVec.toNat_inj]

theorem no_controlRow_iff : (∀ r ∈ controlRows, r.matches w = false) ↔
    (w.toNat / 4096 = 0 → w ≠ 0x00E0 ∧ w ≠ 0x00EE) ∧ w.toNat / 4096 ∉ [1, 2, 3, 4, 6, 7] ∧
      (w.toNat / 4096 = 5 → w.toNat % 16 ≠ 0) := by
  rw [controlRows]
  simp only [↓List.forall_mem_cons, Row.not_matches_iff, mask_F000, mask_F00F, mask_FFFF, BitVec.reduceToNat,
    ne_eq, ← BitVec.toNat_inj, List.mem_cons, List.not_mem_nil, or_false, false_imp_iff, implies_true, and_true]
  omega

theorem no_aluRow_iff : (∀ r ∈ aluRows, r.matches w = false) ↔
    (w.toNat / 4096 = 8 → w.toNat % 16 ∈ [8, 9, 10, 11, 12, 13, 15]) ∧ (w.toNat / 4096 = 9 → w.toNat % 16 ≠ 0) := by
  rw [aluRows]
  simp only [↓List.forall_mem_cons, Row.not_matches_iff, mask_F00F, BitVec.reduceToNat,
    List.mem_cons, List.not_mem_nil, or_false, false_imp_iff, implies_true, and_true]
  omega

theorem no_addressRow_iff : (∀ r ∈ addressRows, r.matches w = false) ↔
    w.toNat / 4096 ∉ [10, 11, 12, 13] ∧ (w.toNat / 4096 = 14 → w.toNat % 256 ∉ [0x9E, 0xA1]) := by
  rw [addressRows]
  simp only [↓List.forall_mem_cons, Row.not_matches_iff, mask_F000, mask_F0FF, BitVec.reduceToNat,
    List.mem_cons, List.not_mem_nil, or_false, false_imp_iff, implies_true, and_true]
  omega

theorem no_miscRow_iff : (∀ r ∈ miscRows, r.matches w = false) ↔
    (w.toNat / 4096 = 15 → w.toNat % 256 ∉ [0x07, 0x0A, 0x15, 0x18, 0x1E, 0x29, 0x33, 0x55, 0x65]) := by
  rw [miscRows]
  simp only [↓List.forall_mem_cons, Row.not_matches_iff, mask_F0FF, BitVec.reduceToNat,
    List.mem_cons, List.not_mem_nil, or_false, false_imp_iff, implies_true, and_true]
  omega

end Sys2Proof

open Sys2Proof

/-- Settles O4: a bit that both masks select parts any two rows (`apart_of_ne`), so at most one matches a word. -/
theorem noWordMatchesTwoRows : Obligations.NoWordMatchesTwoRows := by
  refine ⟨fun _ _ hr _ hq => row_unique hr hq, fun r hr q hq hne => .inr ?_, fun _ _ hr => tagOf_of_matches hr⟩
  simpa [Row.apart] using apart_of_ne hr hq hne

/-- Settles O5: a word is rejected when no row matches it (`decode_eq_unknown_iff`), and each op nibble has rows in one part
of the table only. -/
theorem unknownWordGroups : Obligations.UnknownWordGroups := by
  intro w
  have hop : w.toNat / 4096 < 16 := by have := w.isLt; omega
  rw [decode_eq_unknown_iff, opcodeTable]
  simp only [List.forall_mem_append, no_controlRow_iff, no_aluRow_iff, no_addressRow_iff, no_miscRow_iff]
  generalize w.toNat / 4096 = op at hop ⊢
  interval_cases op <;> simp

end

section
/-! Steps at an UNKNOWN word (R76) and at an LD Vx,K (R173). -/

namespace Sys2Proof.Machine

variable {s : State} {x : RegIdx} {k : Fin 16}

/-- A step over a word that is no instruction only advances (R76). -/
theorem step_of_reject {r : Reject} (hf : s.faulted = none) (hp : s.pc.toNat + 1 < 4096)
    (hd : decode (wordOfBytes (s.byteAt s.pc.toNat) (s.byteAt (s.pc.toNat + 1))) = .error r) :
    step s = .next s.advance := by
  obtain ⟨f, hf', -⟩ | ⟨-, hp', -⟩ | ⟨-, -, i, hi, -⟩ | ⟨-, -, -, e⟩ := step_cases s
  · rw [hf] at hf'; cases hf'
  · omega
  · rw [hd] at hi; cases hi
  · exact e

/-- Rolling back undoes the advance (R71, R173). -/
@[simp] theorem State.rollBack_advance (s : State) : s.advance.rollBack = s := by
  simp [State.rollBack, State.advance]

theorem State.lowestKey_eq_none (h : ∀ j, s.keyDown j = false) : s.lowestKey = none := by
  obtain ⟨k, -, hk, -⟩ | ⟨e, -⟩ := lowestKey_cases s
  · rw [h k] at hk; cases hk
  · exact e

theorem State.lowestKey_eq_some (hk : s.keyDown k = true)
    (hlow : ∀ j, j < k → s.keyDown j = false) : s.lowestKey = some k := by
  obtain ⟨l, e, hl, hlow'⟩ | ⟨-, h⟩ := lowestKey_cases s
  · obtain hlt | rfl | hlt := lt_trichotomy l k
    · rw [hlow l hlt] at hl; cases hl
    · exact e
    · rw [hlow' k hlt] at hk; cases hk
  · rw [h k] at hk; cases hk

/-! ### The cases of LD Vx,K (R173) -/

theorem execLdVxK_no_key (hkw : s.kw = .idle) (h : ∀ j, s.keyDown j = false) :
    exec (.ldVxK x) s = .next s.rollBack := by
  simp only [exec, execLdVxK, hkw, State.lowestKey_eq_none h]

theorem execLdVxK_captures (hkw : s.kw = .idle) (hk : s.keyDown k = true) (hlow : ∀ j, j < k → s.keyDown j = false) :
    exec (.ldVxK x) s = .next { s with kw := .awaitingRelease k }.rollBack := by
  simp only [exec, execLdVxK, hkw, State.lowestKey_eq_some hk hlow]

theorem execLdVxK_released (hkw : s.kw = .awaitingRelease k) (hk : s.keyDown k = false) :
    exec (.ldVxK x) s = .next { s.setV x (BitVec.ofNat 8 k.val) with kw := .idle } := by
  simp [exec, execLdVxK, hkw, hk]

/-! ### A step at LD Vx,K -/

section
variable (hf : s.faulted = none) (hp : s.pc.toNat + 1 < 4096)
  (hd : decode (wordOfBytes (s.byteAt s.pc.toNat) (s.byteAt (s.pc.toNat + 1))) = .ok (.ldVxK x))
include hf hp hd

theorem step_ldVxK_no_key (hkw : s.kw = .idle) (h : ∀ j, s.keyDown j = false) : step s = .next s := by
  rw [step_of_decode hf hp hd, execLdVxK_no_key (s := s.advance) hkw h, State.rollBack_advance]

theorem step_ldVxK_captures (hkw : s.kw = .idle) (hk : s.keyDown k = true) (hlow : ∀ j, j < k → s.keyDown j = false) :
    step s = .next { s with kw := .awaitingRelease k } := by
  rw [step_of_decode hf hp hd, execLdVxK_captures (s := s.advance) hkw hk hlow]
  exact congrArg Host.Outcome.next (State.rollBack_advance { s with kw := .awaitingRelease k })

theorem step_ldVxK_released (hkw : s.kw = .awaitingRelease k) (hk : s.keyDown k = false) :
    step s = .next { s.advance.setV x (BitVec.ofNat 8 k.val) with kw := .idle } :=
  (step_of_decode hf hp hd).trans (execLdVxK_released (s := s.advance) hkw hk)

end

theorem State.setV_key_getV_toNat (s : State) (x : RegIdx) (k : Fin 16) :
    ((s.setV x (BitVec.ofNat 8 k.val)).getV x).toNat = k.val := by
  rw [State.setV_getV_same, BitVec.toNat_ofNat]
  omega

end Sys2Proof.Machine

open Sys2Proof Sys2Proof.Machine

/-- Settles O1, by running the decoder on the twelve words. -/
theorem specWordsDecode : Obligations.SpecWordsDecode := by
  unfold Obligations.SpecWordsDecode
  decide

/-- Settles O7 (`step_of_reject`). -/
theorem unknownWordIsANoOp : Obligations.UnknownWordIsANoOp := fun _ _ => step_of_reject

/-- Settles O36: the roll back undoes the advance (`step_ldVxK_no_key`). -/
theorem waitWithoutAKeyChangesNothing : Obligations.WaitWithoutAKeyChangesNothing :=
  fun _ _ => step_ldVxK_no_key

/-- Settles O37: the first step leaves `PC` and memory alone (`step_ldVxK_captures`), so the second one, after the key update,
is at the same LD Vx,K (`step_ldVxK_released`). -/
theorem pressThenReleaseEndsTheWait : Obligations.PressThenReleaseEndsTheWait := by
  intro x s k keys hf hp hd hkw hk hlow hup
  have released := step_ldVxK_released (s := setKeys keys { s with kw := .awaitingRelease k }) hf hp hd rfl hup
  exact ⟨_, _, step_ldVxK_captures hf hp hd hkw hk hlow, rfl, rfl, released, s.advance.setV_key_getV_toNat x k, rfl, rfl⟩
end

section
/-! Control transfer and skips (R100 to R108): how the stack operations fault, and the one shape of a skip. -/

namespace Sys2Proof.Machine

variable {s : State}

/-- RET on an empty stack (R27, R101). -/
theorem execRet_underflow (h : s.sp.val = 0) : exec .ret s = .fault (.stackUnderflow s.pc.toNat s.instrAddr) := by
  have hpos : ¬ 0 < s.sp.val := by omega
  simp only [exec, execRet, pop, dif_neg hpos]

/-- CALL on a full stack (R27, R103). -/
theorem execCall_overflow {nnn : Addr} (h : s.sp.val = 16) :
    exec (.call nnn) s = .fault (.stackOverflow s.pc.toNat s.instrAddr) := by
  have hfull : ¬ s.sp.val < 16 := by omega
  simp only [exec, execCall, push, dif_neg hfull]

/-- An instruction that skips on `c` moves `PC` only, by 2 where `P` makes `c` true and not at all where `Q` makes it
false (R100). -/
theorem exec_skipIf_moves_pc {i : Instr} {c : Bool} {P Q : Prop} (h : exec i s = .next (s.skipIf c))
    (hP : P → c = true) (hQ : Q → c = false) :
    ∃ t, exec i s = .next t ∧ t = { s with pc := t.pc } ∧ (P → t.pc = s.pc + 2) ∧ (Q → t.pc = s.pc) := by
  refine ⟨_, h, ?_, fun p => ?_, fun q => ?_⟩
  · cases c <;> rfl
  · simp [hP p]
  · simp [hQ q]

end Sys2Proof.Machine

open Sys2Proof Sys2Proof.Machine

/-- Settles O10 (`execRet_next`, `execRet_underflow`). -/
theorem retReturnsToThePoppedAddress : Obligations.RetReturnsToThePoppedAddress :=
  fun s => ⟨fun h => ⟨_, execRet_next s h, rfl, rfl, Nat.sub_add_cancel h⟩, execRet_underflow⟩

/-- Settles O11: JP is a jump to its zero-extended address (`zext16_toNat`). -/
theorem jpSetsThePc : Obligations.JpSetsThePc := fun nnn _ => ⟨_, rfl, rfl, zext16_toNat nnn⟩

/-- Settles O12 (`execCall_next`, `execCall_overflow`): a push writes the one entry at the old stack pointer. -/
theorem callPushesTheReturnAddress : Obligations.CallPushesTheReturnAddress := by
  refine fun nnn s => ⟨fun h => ⟨_, execCall_next nnn s h, rfl, zext16_toNat nnn, rfl, ?_, fun j hj hne => ?_⟩,
    execCall_overflow⟩
  · exact Vector.getElem_set_self h
  · exact Vector.getElem_set_ne h hj hne.symm

/-- Settles O14: each of the four skips on its comparison (`exec_skipIf_moves_pc`). -/
theorem registerSkipsMoveOnlyThePc : Obligations.RegisterSkipsMoveOnlyThePc := by
  intro x y kk s
  refine ⟨?seImm, ?sneImm, ?seReg, ?sneReg⟩
  case seImm | seReg => exact exec_skipIf_moves_pc rfl beq_iff_eq.mpr beq_false_of_ne
  case sneImm | sneReg => exact exec_skipIf_moves_pc rfl bne_iff_ne.mpr bne_eq_false_iff_eq.mpr

/-- Settles O15: the sum stays below 65536 (`offsetTarget_toNat`), and a target whose second byte is past memory is one
whose fetch faults (`step_of_fetch_past`). -/
theorem jpV0AddsRegisterZero : Obligations.JpV0AddsRegisterZero := by
  intro nnn s
  have hsum : nnn.toNat + (s.getV 0).toNat < 65536 := by omega
  refine ⟨_, rfl, rfl, ?_, fun hf hfar => step_of_fetch_past ?_ hf⟩
  · exact (offsetTarget_toNat s nnn).trans (Nat.mod_eq_of_lt hsum).symm
  · exact Nat.add_le_add_right hfar 1

end

section
/-! Register loads and the ALU (R120 to R133): the flags as numbers, and the two shapes of a register write. -/

namespace Sys2Proof.Machine

variable {s : State} {i : Instr} {x : RegIdx}

/-! ### Flags as numbers -/

/-- ADD's carry (R126). -/
theorem carryFlag_toNat (a b : Byte) : (carryFlag a b).toNat = if a.toNat + b.toNat > 255 then 1 else 0 := by
  simp [carryFlag, flagOf_toNat]

/-- SUB's and SUBN's strict comparison (R127, R129). -/
theorem notBorrowFlag_toNat (a b : Byte) : (notBorrowFlag a b).toNat = if a.toNat > b.toNat then 1 else 0 := by
  simp [notBorrowFlag, flagOf_toNat]

theorem flagOf_getLsbD_toNat (a : Byte) (k : Nat) : (flagOf (a.getLsbD k)).toNat = a.toNat / 2 ^ k % 2 := by
  rw [flagOf_toNat, BitVec.getLsbD, Nat.testBit_eq_decide_div_mod_eq]
  rcases Nat.mod_two_eq_zero_or_one (a.toNat / 2 ^ k) with h | h <;> simp [h]

/-- The bit SHR shifts out (R128). -/
theorem lowBitFlag_toNat (a : Byte) : (lowBitFlag a).toNat = a.toNat % 2 :=
  (flagOf_getLsbD_toNat a 0).trans (by rw [pow_zero, Nat.div_one])

/-- The bit SHL shifts out (R130). -/
theorem highBitFlag_toNat (a : Byte) : (highBitFlag a).toNat = a.toNat / 128 % 2 := flagOf_getLsbD_toNat a 7

/-! ### The shapes of a register write -/

/-- An instruction that writes `V[x]` alone leaves every other register, VF as well, as it was (R20); its result is given
bit by bit. -/
theorem exec_setV_bits {b : Byte} {bit : Nat → Bool} (h : exec i s = .next (s.setV x b)) (hb : ∀ k, b.getLsbD k = bit k) :
    ∃ t, exec i s = .next t ∧ t = { s with v := t.v } ∧ (∀ q, q ≠ x → t.getV q = s.getV q) ∧
      ∀ k, (t.getV x).getLsbD k = bit k :=
  ⟨_, h, rfl, fun q => s.setV_getV_other x q b, fun k => by rw [State.setV_getV_same, hb]⟩

/-- An instruction that writes its flag and then its result: the result stays where `x = 15`, and the flag elsewhere
(R79, D4). -/
theorem exec_setFlagThenV_writes {f b : Byte} {flag result : Nat} (h : exec i s = .next (s.setFlagThenV x f b))
    (hb : b.toNat = result) (hf : f.toNat = flag) :
    ∃ t, exec i s = .next t ∧ t = { s with v := t.v } ∧ (t.getV x).toNat = result ∧
      (x ≠ 15 → (t.getV 15).toNat = flag) ∧ ∀ q, q ≠ x → q ≠ 15 → t.getV q = s.getV q := by
  refine ⟨_, h, rfl, ?result, fun hx => ?flag, fun _ => s.setFlagThenV_getV_other f b⟩
  case result => rw [State.setFlagThenV_getV, if_pos rfl, hb]
  case flag => rw [State.setFlagThenV_getV, if_neg hx.symm, if_pos rfl, hf]

end Sys2Proof.Machine

open Sys2Proof Sys2Proof.Machine

/-- Settles O16: each is one register write (`State.setV_getV_same`, `State.setV_getV_other`). -/
theorem registerLoadsWriteOneRegister : Obligations.RegisterLoadsWriteOneRegister := fun x y kk s =>
  ⟨⟨_, rfl, rfl, s.setV_getV_same x kk, fun q => s.setV_getV_other x q kk⟩,
    _, rfl, rfl, s.setV_getV_same x (s.getV y), fun q => s.setV_getV_other x q (s.getV y)⟩

/-- Settles O17: the one write is of `sumByte` (`sumByte_toNat`). -/
theorem addImmediateWrapsWithoutFlag : Obligations.AddImmediateWrapsWithoutFlag := by
  refine fun x kk s => ⟨_, rfl, rfl, ?_, fun q => s.setV_getV_other x q _⟩
  rw [State.setV_getV_same, sumByte_toNat]

/-- Settles O18: the one write is of the two operands' bits (`exec_setV_bits`). -/
theorem bitwiseOperationsWriteOneRegister : Obligations.BitwiseOperationsWriteOneRegister := fun _ _ _ =>
  ⟨exec_setV_bits rfl fun _ => BitVec.getLsbD_or, exec_setV_bits rfl fun _ => BitVec.getLsbD_and,
    exec_setV_bits rfl fun _ => BitVec.getLsbD_xor⟩

/-- Settles O19 (`exec_setFlagThenV_writes`): the result is the sum, the flag its carry. -/
theorem addRegistersSetsCarryThenSum : Obligations.AddRegistersSetsCarryThenSum := fun _ _ _ =>
  exec_setFlagThenV_writes rfl (sumByte_toNat _ _) (carryFlag_toNat _ _)

/-- Settles O20 (`exec_setFlagThenV_writes`): minuend `V[x]`, subtrahend `V[y]`. -/
theorem subComparesStrictly : Obligations.SubComparesStrictly := fun _ _ _ =>
  exec_setFlagThenV_writes rfl (differenceByte_toNat _ _) (notBorrowFlag_toNat _ _)

/-- Settles O21 (`exec_setFlagThenV_writes`): minuend `V[y]`, subtrahend `V[x]`. -/
theorem subnComparesStrictly : Obligations.SubnComparesStrictly := fun _ _ _ =>
  exec_setFlagThenV_writes rfl (differenceByte_toNat _ _) (notBorrowFlag_toNat _ _)

/-- Settles O22 (`exec_setFlagThenV_writes`): the flag is bit 0 of the old `V[x]`, or bit 7. -/
theorem shiftsPutTheLostBitInVF : Obligations.ShiftsPutTheLostBitInVF := fun _ _ _ =>
  ⟨exec_setFlagThenV_writes rfl (shiftRightByte_toNat _) (lowBitFlag_toNat _),
    exec_setFlagThenV_writes rfl (shiftLeftByte_toNat _) (highBitFlag_toNat _)⟩

/-- Settles O23: the write comes after the draw, which leaves the registers alone. -/
theorem rndMasksAFreshByte : Obligations.RndMasksAFreshByte := by
  refine fun x kk s => ⟨_, rfl, rfl, fun q => (draw8 s).2.setV_getV_other x q _, fun k => ?_⟩
  rw [State.setV_getV_same, BitVec.getLsbD_and]

end

section
/-! Index register and memory instructions (R140 to R145): what a store leaves at `I + k`, what a register load reads there,
and the fault of a range that is not all addresses. -/

namespace Sys2Proof.Machine

variable {s : State} {x : RegIdx}

/-- `V[q]` is the register of number `q` (R73). -/
@[simp] theorem rangeReg_toNat_self (q : RegIdx) : rangeReg q.toNat = q :=
  BitVec.eq_of_toNat_eq (rangeReg_toNat q.isLt)

/-- Bytes stored at `I` upward: the one of place `k` is at `I + k` (R58). -/
theorem State.byteAt_writeBytes_indexed (s : State) {bs : List Byte} {k : Nat} (hk : k < bs.length) :
    State.byteAt { s with mem := Memory.writeBytes s.params s.mem s.i.toNat bs } (indexed s k) = bs[k] := by
  have hin : s.i.toNat ≤ indexed s k ∧ indexed s k < s.i.toNat + bs.length := by simp only [indexed]; omega
  rw [State.byteAt_writeBytes, dif_pos hin]
  simp only [indexed, Nat.add_sub_cancel_left]

/-- Stores that do not end below 4096 fault at the lowest address that is not below it (R52, R58). -/
theorem storeBytes_past {a : Nat} {bs : List Byte} (hne : bs ≠ []) (h : 4096 < a + bs.length) :
    storeBytes s a bs = .error (.writeRange (max a 4096) s.instrAddr) := by
  obtain ⟨rfl | hfits, -⟩ | ⟨-, -, e⟩ := storeBytes_cases s a bs
  · exact absurd rfl hne
  · omega
  · exact e

/-- LD B where its last address is not in memory (R143, R202). -/
theorem execLdB_fault (h : 4096 ≤ s.i.toNat + 2) :
    exec (.ldB x) s = .fault (.writeRange (max s.i.toNat 4096) s.instrAddr) := by
  have hne : bcdDigits (s.getV x) ≠ [] := List.cons_ne_nil _ _
  have hpast : 4096 < s.i.toNat + (bcdDigits (s.getV x)).length := by rw [length_bcdDigits]; omega
  simp only [exec, execLdB, indexed, Nat.add_zero, toOutcome, storeBytes_past hne hpast]

/-- LD [I],Vx where its last address is not in memory (R144, R202). -/
theorem execLdMemVx_fault (h : 4096 ≤ s.i.toNat + x.toNat) :
    exec (.ldMemVx x) s = .fault (.writeRange (max s.i.toNat 4096) s.instrAddr) := by
  have hlen := length_registersThrough s x
  have hne : registersThrough s x ≠ [] := List.ne_nil_of_length_eq_add_one hlen
  have hpast : 4096 < s.i.toNat + (registersThrough s x).length := by omega
  simp only [exec, execLdMemVx, indexed, Nat.add_zero, toOutcome, storeBytes_past hne hpast]

/-- What LD Vx,[I] leaves when its addresses are in memory (R145). -/
theorem execLdVxMem_next (h : s.i.toNat + x.toNat < 4096) :
    ∃ v', exec (.ldVxMem x) s = .next { s with v := v' } ∧ ∀ q, State.getV { s with v := v' } q =
      if q.toNat ≤ x.toNat then s.byteAt (indexed s q.toNat) else s.getV q := by
  obtain ⟨-, v', e, hv⟩ | ⟨-, hpast, -⟩ := loadRegisters_cases s 0 (x.toNat + 1) (by omega)
  · refine ⟨v', ?_, fun q => ?_⟩
    · simp only [exec, execLdVxMem, toOutcome, List.range_eq_range', e]
    · simp only [hv, indexed, Nat.zero_le, true_and, Nat.zero_add, Nat.lt_succ_iff]
  · omega

/-- LD Vx,[I] where its last address is not in memory (R145, R202). -/
theorem execLdVxMem_fault (h : 4096 ≤ s.i.toNat + x.toNat) :
    exec (.ldVxMem x) s = .fault (.readRange (max s.i.toNat 4096) s.instrAddr) := by
  obtain ⟨hzero | hfits, -⟩ | ⟨-, -, e⟩ := loadRegisters_cases s 0 (x.toNat + 1) (by omega)
  · omega
  · omega
  · simp only [exec, execLdVxMem, toOutcome, List.range_eq_range', e, Nat.add_zero]

/-- The digits of LD B as numbers (R143): each fits a byte. -/
theorem bcdDigits_toNat (b : Byte) :
    (bcdDigits b).map BitVec.toNat = [b.toNat / 100, b.toNat % 100 / 10, b.toNat % 10] := by
  simp only [bcdDigits, List.map_cons, List.map_nil, BitVec.toNat_ofNat, List.cons.injEq, and_true]
  omega

/-- The digit that LD B stores at `I + k` (R143). -/
theorem State.byteAt_bcdDigits (s : State) (b : Byte) {k n : Nat}
    (h : [b.toNat / 100, b.toNat % 100 / 10, b.toNat % 10][k]? = some n) :
    (State.byteAt { s with mem := Memory.writeBytes s.params s.mem s.i.toNat (bcdDigits b) } (indexed s k)).toNat = n := by
  rw [← bcdDigits_toNat, List.getElem?_map, Option.map_eq_some_iff] at h
  obtain ⟨digit, hdigit, rfl⟩ := h
  obtain ⟨hk, rfl⟩ := List.getElem?_eq_some_iff.mp hdigit
  rw [State.byteAt_writeBytes_indexed s hk]

end Sys2Proof.Machine

open Sys2Proof Sys2Proof.Machine

/-- Settles O25 (`execLdB_next`, `execLdB_fault`): the digits are those of `bcdDigits` (`State.byteAt_bcdDigits`), and what
lies outside the three bytes is kept as for every instruction (O46). -/
theorem bcdStoresThreeDigits : Obligations.BcdStoresThreeDigits := by
  refine fun x s => ⟨fun h => ?_, execLdB_fault⟩
  have hnext := execLdB_next (x := x) h
  exact ⟨_, hnext, rfl, s.byteAt_bcdDigits _ rfl, s.byteAt_bcdDigits _ rfl, s.byteAt_bcdDigits _ rfl,
    memoryChangesOnlyAtTheStoredBytes _ s _ hnext⟩

/-- Settles O26 (`execLdMemVx_next`, `execLdMemVx_fault`): place `q` of the stored bytes is `V[q]`, and what lies outside them
is kept as for every instruction (O46). -/
theorem registerDumpStoresTheRange : Obligations.RegisterDumpStoresTheRange := by
  refine fun x s => ⟨fun h => ?_, execLdMemVx_fault⟩
  have hnext := execLdMemVx_next h
  refine ⟨_, hnext, rfl, fun q hq => ?_, fun a ha => ?_⟩
  · have hlt : q.toNat < (registersThrough s x).length := by rw [length_registersThrough]; omega
    rw [State.byteAt_writeBytes_indexed s hlt, getElem_registersThrough, rangeReg_toNat_self]
  · exact memoryChangesOnlyAtTheStoredBytes _ s _ hnext a fun k hk => ha k (Nat.le_of_lt_succ hk)

/-- Settles O27 (`execLdVxMem_next`, `execLdVxMem_fault`). -/
theorem registerLoadReadsTheRange : Obligations.RegisterLoadReadsTheRange := by
  refine fun x s => ⟨fun h => ?_, execLdVxMem_fault⟩
  obtain ⟨v', hnext, hv⟩ := execLdVxMem_next h
  refine ⟨_, hnext, rfl, fun q hq => ?_, fun q hq => ?_⟩
  · rw [hv, if_pos hq]
  · rw [hv, if_neg (Nat.not_le.mpr hq)]

/-- Settles O28: the dump leaves `I` and `V[q]` at `I + q` (O26), and the load reads `V[q]` from there (O27). -/
theorem dumpThenLoadRestoresTheRegisters : Obligations.DumpThenLoadRestoresTheRegisters := by
  intro x s v' h
  obtain ⟨dump, -⟩ := registerDumpStoresTheRange x s
  obtain ⟨t, ht, hmem, stored, -⟩ := dump h
  have hi : t.i = s.i := (congrArg State.i hmem :)
  obtain ⟨load, -⟩ := registerLoadReadsTheRange x { t with v := v' }
  obtain ⟨u, hu, hv, loaded, -⟩ := load (by rw [hi]; exact h)
  refine ⟨t, u, ht, hu, (congrArg State.i hv).trans hi, fun q hq => ?_⟩
  have haddr : indexed { t with v := v' } q.toNat = indexed s q.toNat := congrArg (·.toNat + q.toNat) hi
  rw [loaded q hq, haddr]
  exact stored q hq

/-- Settles O24, by the three addresses as numbers (`zext16_toNat`, `indexSum_toNat`, `glyphAddress_toNat`). -/
theorem indexInstructionsWriteOnlyI : Obligations.IndexInstructionsWriteOnlyI := fun x nnn s =>
  ⟨⟨_, rfl, rfl, zext16_toNat nnn⟩, ⟨_, rfl, rfl, indexSum_toNat s x⟩, _, rfl, rfl, glyphAddress_toNat s x⟩

end

section
/-! Display (R160 to R164): DRW as one drawing of the sprite's pixels, and what drawing the same pixels again does. -/

namespace Sys2Proof.Machine

variable {P : Fin 64 → Fin 32 → Prop} {s t u : State} {c : Fin 64} {r : Fin 32}

/-! ### Drawing -/

/-- A flag that was 0 is set by a collision only (R161). -/
theorem Drawn.flag_eq_one_iff (h : Drawn P s t) (hz : s.getV flagReg = 0) :
    t.getV flagReg = 1 ↔ ∃ c r, P c r ∧ s.pixel c r = true := by
  refine ⟨fun on => ?_, h.flag_on⟩
  by_contra hn
  rw [h.flag_off hn, hz] at on
  exact absurd on (by decide)

theorem Drawn.flag_eq_one_or_eq_zero (h : Drawn P s t) (hz : s.getV flagReg = 0) :
    t.getV flagReg = 1 ∨ t.getV flagReg = 0 :=
  (Classical.em _).imp h.flag_on fun hn => (h.flag_off hn).trans hz

/-- The pixels that went on are the drawn ones that are on now. -/
theorem Drawn.turnedOn_iff (h : Drawn P s t) :
    s.pixel c r = false ∧ t.pixel c r = true ↔ P c r ∧ t.pixel c r = true := by
  by_cases hp : P c r
  · simp [h.pixels_in c r hp, hp]
  · simp [h.pixels_out c r hp, hp]

/-- Drawing the same pixels again brings each back (R164), whatever VF is set to in between. -/
theorem Drawn.pixel_twice {b : Byte} (h : Drawn P s t) (k : Drawn P (t.setV flagReg b) u) : u.pixel c r = s.pixel c r := by
  by_cases hp : P c r
  · rw [k.pixels_in c r hp, State.setV_pixel, h.pixels_in c r hp, Bool.not_not]
  · rw [k.pixels_out c r hp, State.setV_pixel, h.pixels_out c r hp]

/-- Drawing leaves `I` and memory, so a sprite covers the same pixels as before. -/
theorem Drawn.spriteCovers_eq (h : Drawn P s t) : spriteCovers t = spriteCovers s := by
  funext sx sy n c r
  simp only [spriteCovers, h.i, h.byteAt]

/-! ### DRW -/

/-- DRW with its rows in memory draws the sprite's pixels once, from VF = 0 (R161). -/
theorem execDrw_next {x y : RegIdx} {n : BitVec 4} (h : n.toNat = 0 ∨ s.i.toNat + n.toNat ≤ 4096) :
    ∃ t, exec (.drw x y n) s = .next t ∧
      Drawn (spriteCovers s (s.getV x).toNat (s.getV y).toNat n.toNat) (s.setV flagReg 0) t := by
  obtain ⟨-, t, e, d⟩ | ⟨hne, hpast, -⟩ :=
    drawRows_cases (s.getV x).toNat (s.getV y).toNat 0 n.toNat (by omega) (s.setV flagReg 0)
  · refine ⟨t, by simp only [exec, execDrw, toOutcome, List.range_eq_range', e], ?_⟩
    simp only [Nat.zero_le, true_and, Nat.zero_add] at d
    exact d
  · simp only [State.setV_i] at hpast
    omega

/-- DRW where its last row's byte is not in memory (R161, R202). -/
theorem execDrw_fault {x y : RegIdx} {n : BitVec 4} (hne : n.toNat ≠ 0) (h : 4096 < s.i.toNat + n.toNat) :
    exec (.drw x y n) s = .fault (.readRange (max s.i.toNat 4096) s.instrAddr) := by
  obtain ⟨hzero | hfits, -⟩ | ⟨-, -, e⟩ :=
    drawRows_cases (s.getV x).toNat (s.getV y).toNat 0 n.toNat (by omega) (s.setV flagReg 0)
  · exact absurd hzero hne
  · simp only [State.setV_i] at hfits
    omega
  · simp only [exec, execDrw, toOutcome, List.range_eq_range', e]
    rfl

end Sys2Proof.Machine

open Sys2Proof Sys2Proof.Machine

/-- Settles O31 (`execDrw_next`, `execDrw_fault`): the sprite is drawn once, from VF = 0. -/
theorem drawTogglesTheCoveredPixels : Obligations.DrawTogglesTheCoveredPixels := by
  refine fun x y n s => ⟨fun h => ?_, execDrw_fault⟩
  obtain ⟨t, e, d⟩ := execDrw_next (x := x) (y := y) h
  obtain ⟨frame, others⟩ := execDrw_frame s t x y n e
  refine ⟨t, e, frame, fun c r => ⟨d.pixels_in c r, d.pixels_out c r⟩, d.flag_on, fun off => ?_, others⟩
  refine (d.flag_off ?_).trans (s.setV_getV_same flagReg 0)
  rintro ⟨c, r, covered, on⟩
  exact Bool.false_ne_true ((off c r covered).symm.trans on)

/-- Settles O32: VF is neither start register, so the second DRW draws the pixels the first one drew
(`Drawn.spriteCovers_eq`, `Drawn.pixel_twice`), and collides on those the first turned on (`Drawn.turnedOn_iff`). -/
theorem drawingTwiceRestoresTheDisplay : Obligations.DrawingTwiceRestoresTheDisplay := by
  intro x y n s hx hy h
  obtain ⟨t, e, d⟩ := execDrw_next (x := x) (y := y) h
  obtain ⟨-, others⟩ := execDrw_frame s t x y n e
  have ht : n.toNat = 0 ∨ t.i.toNat + n.toNat ≤ 4096 := by rwa [d.i]
  obtain ⟨u, e', d'⟩ := execDrw_next (x := x) (y := y) ht
  rw [d.spriteCovers_eq, others x hx, others y hy] at d'
  have flag_cleared := t.setV_getV_same flagReg 0
  refine ⟨t, u, e, e', fun c r => d.pixel_twice d', ?_, d'.flag_eq_one_or_eq_zero flag_cleared⟩
  exact (d'.flag_eq_one_iff flag_cleared).trans (exists₂_congr fun c r => d.turnedOn_iff.symm)

/-- Settles O30: CLS replaces the display by one whose pixels are all off. -/
theorem clsTurnsEveryPixelOff : Obligations.ClsTurnsEveryPixelOff :=
  fun _ => ⟨_, rfl, rfl, fun c r => by simp only [State.pixel, Vector.getElem_replicate]⟩

end

section
/-! Key skips, the remaining case of LD Vx,K, and the timers counted down (R170 to R177). -/

namespace Sys2Proof.Machine

variable {s : State} {x : RegIdx}

/-! ### SKP and SKNP -/

theorem keyIndex_of_lt {b : Byte} (h : b.toNat < 16) : keyIndex s b = .ok ⟨b.toNat, h⟩ := dif_pos h

theorem keyIndex_of_ge {b : Byte} (h : 16 ≤ b.toNat) : keyIndex s b = .error (.keyRange b.toNat s.instrAddr) :=
  dif_neg h.not_gt

theorem execSkp_of_key (h : (s.getV x).toNat < 16) :
    exec (.skp x) s = .next (s.skipIf (s.keyDown ⟨(s.getV x).toNat, h⟩)) := by
  simp only [exec, execSkp, keyIndex_of_lt h]

theorem execSknp_of_key (h : (s.getV x).toNat < 16) :
    exec (.sknp x) s = .next (s.skipIf (!s.keyDown ⟨(s.getV x).toNat, h⟩)) := by
  simp only [exec, execSknp, keyIndex_of_lt h]

/-- SKP on a value that names no key (R177). -/
theorem execSkp_fault (h : 16 ≤ (s.getV x).toNat) :
    exec (.skp x) s = .fault (.keyRange (s.getV x).toNat s.instrAddr) := by
  simp only [exec, execSkp, keyIndex_of_ge h]

/-- SKNP on a value that names no key (R177). -/
theorem execSknp_fault (h : 16 ≤ (s.getV x).toNat) :
    exec (.sknp x) s = .fault (.keyRange (s.getV x).toNat s.instrAddr) := by
  simp only [exec, execSknp, keyIndex_of_ge h]

/-! ### LD Vx,K, and the tick -/

/-- While the captured key is still down the instruction runs again (R173). -/
theorem execLdVxK_held {k : Fin 16} (hkw : s.kw = .awaitingRelease k) (hk : s.keyDown k = true) :
    exec (.ldVxK x) s = .next s.rollBack := by
  simp only [exec, execLdVxK, hkw, hk, if_true]

/-- A timer counts down to 0 and stays there (R30, R176): the truncated subtraction of `Nat`. -/
theorem countDown_toNat (b : Byte) : (countDown b).toNat = b.toNat - 1 := by
  unfold countDown
  split
  case isTrue h => rw [h]; rfl
  case isFalse h => bv_omega

end Sys2Proof.Machine

open Sys2Proof Sys2Proof.Machine

/-- Settles O35: one rule for each of the four cases (`execLdVxK_no_key`, `execLdVxK_captures`, `execLdVxK_held`,
`execLdVxK_released`). -/
theorem waitForKeyStateMachine : Obligations.WaitForKeyStateMachine := by
  refine fun x s => ⟨execLdVxK_no_key, fun k => execLdVxK_captures, fun k => execLdVxK_held, fun k hkw hk => ?released⟩
  exact ⟨_, execLdVxK_released hkw hk, rfl, s.setV_key_getV_toNat x k, fun q => s.setV_getV_other x q _⟩

/-- Settles O33: a value below 16 names the key the skip is on (`exec_skipIf_moves_pc`), any other faults
(`execSkp_fault`, `execSknp_fault`). -/
theorem keySkipsReadTheKeyOfVx : Obligations.KeySkipsReadTheKeyOfVx := by
  refine fun x s => ⟨fun h => ⟨?skp, ?sknp⟩, fun h => ⟨execSkp_fault h, execSknp_fault h⟩⟩
  case skp => exact exec_skipIf_moves_pc (execSkp_of_key h) id id
  case sknp => exact exec_skipIf_moves_pc (execSknp_of_key h) (congrArg not) (congrArg not)

/-- Settles O34: one register write (`State.setV_getV_same`, `State.setV_getV_other`) and two timer writes; the sound
output reads ST (`soundOn_iff`). -/
theorem timerInstructionsCopy : Obligations.TimerInstructionsCopy := by
  refine fun x s => ⟨?ldVxDt, ⟨_, rfl, rfl, rfl⟩, ⟨_, rfl, rfl, rfl, ?sound⟩⟩
  case ldVxDt => exact ⟨_, rfl, rfl, s.setV_getV_same x s.dt, fun q => s.setV_getV_other x q s.dt⟩
  case sound => exact (soundOn_iff _).trans (BitVec.toNat_ne_iff_ne (y := 0))

/-- Settles O38: the tick is accepted in every phase, and each timer counts down (`countDown_toNat`). -/
theorem tickCountsBothTimersDown : Obligations.TickCountsBothTimersDown := fun x =>
  ⟨⟨tick x.machine, x.phase⟩, rfl, rfl, rfl, countDown_toNat x.machine.dt, countDown_toNat x.machine.st⟩
end

section
/-! When an instruction completes and what its fault records (R200, R202), and that a step is never refused. -/

namespace Sys2Proof.Machine

variable {i : Instr} {s : State} {f : Fault}

/-- R200's table: the instructions that can fault, and the record of each one's fault. -/
inductive TableFault (s : State) : Instr → Fault → Prop
  | drw {x y : RegIdx} {n : BitVec 4} : TableFault s (.drw x y n) (.readRange (max s.i.toNat 4096) s.instrAddr)
  | ldVxMem {x : RegIdx} : TableFault s (.ldVxMem x) (.readRange (max s.i.toNat 4096) s.instrAddr)
  | ldB {x : RegIdx} : TableFault s (.ldB x) (.writeRange (max s.i.toNat 4096) s.instrAddr)
  | ldMemVx {x : RegIdx} : TableFault s (.ldMemVx x) (.writeRange (max s.i.toNat 4096) s.instrAddr)
  | call {nnn : Addr} : TableFault s (.call nnn) (.stackOverflow s.pc.toNat s.instrAddr)
  | ret : TableFault s .ret (.stackUnderflow s.pc.toNat s.instrAddr)
  | skp {x : RegIdx} : TableFault s (.skp x) (.keyRange (s.getV x).toNat s.instrAddr)
  | sknp {x : RegIdx} : TableFault s (.sknp x) (.keyRange (s.getV x).toNat s.instrAddr)

/-- LD Vx,K goes on in each of its four cases (R173). -/
theorem execLdVxK_completes (x : RegIdx) (s : State) : ∃ t, exec (.ldVxK x) s = .next t := by
  cases hkw : s.kw with
  | idle =>
    obtain ⟨k, -, hk, hlow⟩ | ⟨-, hup⟩ := lowestKey_cases s
    · exact ⟨_, execLdVxK_captures hkw hk hlow⟩
    · exact ⟨_, execLdVxK_no_key hkw hup⟩
  | awaitingRelease k =>
    cases hk : s.keyDown k with
    | true => exact ⟨_, execLdVxK_held hkw hk⟩
    | false => exact ⟨_, execLdVxK_released hkw hk⟩

/-- An instruction goes on when none of its conditions of R200's table holds. -/
theorem exec_next_of_completes (h : completes i s = true) : ∃ t, exec i s = .next t := by
  cases i
  case ret => exact ⟨_, execRet_next s (of_decide_eq_true h)⟩
  case call nnn => exact ⟨_, execCall_next nnn s (of_decide_eq_true h)⟩
  case drw x y n =>
    have hrows : n.toNat = 0 ∨ s.i.toNat + n.toNat ≤ 4096 := by simpa [completes] using h
    obtain ⟨t, e, -⟩ := execDrw_next hrows
    exact ⟨t, e⟩
  case skp => exact ⟨_, execSkp_of_key (of_decide_eq_true h)⟩
  case sknp => exact ⟨_, execSknp_of_key (of_decide_eq_true h)⟩
  case ldB => exact ⟨_, execLdB_next (of_decide_eq_true h)⟩
  case ldMemVx => exact ⟨_, execLdMemVx_next (of_decide_eq_true h)⟩
  case ldVxMem =>
    obtain ⟨v', e, -⟩ := execLdVxMem_next (of_decide_eq_true h)
    exact ⟨_, e⟩
  case ldVxK x => exact execLdVxK_completes x s
  all_goals exact ⟨_, rfl⟩

/-- An instruction faults with its record of R200's table when one of its conditions there holds. -/
theorem exec_fault_of_not_completes (h : completes i s = false) : ∃ f, exec i s = .fault f ∧ TableFault s i f := by
  cases i
  case ret => exact ⟨_, execRet_underflow (Nat.eq_zero_of_not_pos (of_decide_eq_false h)), .ret⟩
  case call =>
    have hfull : ¬ s.sp.val < 16 := of_decide_eq_false h
    exact ⟨_, execCall_overflow (by omega), .call⟩
  case drw x y n =>
    obtain ⟨hne, hpast⟩ : n.toNat ≠ 0 ∧ 4096 < s.i.toNat + n.toNat := by simpa [completes] using h
    exact ⟨_, execDrw_fault hne hpast, .drw⟩
  case skp => exact ⟨_, execSkp_fault (Nat.le_of_not_lt (of_decide_eq_false h)), .skp⟩
  case sknp => exact ⟨_, execSknp_fault (Nat.le_of_not_lt (of_decide_eq_false h)), .sknp⟩
  case ldB => exact ⟨_, execLdB_fault (Nat.le_of_not_lt (of_decide_eq_false h)), .ldB⟩
  case ldMemVx => exact ⟨_, execLdMemVx_fault (Nat.le_of_not_lt (of_decide_eq_false h)), .ldMemVx⟩
  case ldVxMem => exact ⟨_, execLdVxMem_fault (Nat.le_of_not_lt (of_decide_eq_false h)), .ldVxMem⟩
  all_goals cases h

/-- Every fault of an instruction is one of R200's table: an instruction that faults does not complete. -/
theorem tableFault_of_exec_fault (h : exec i s = .fault f) : TableFault s i f := by
  cases hc : completes i s with
  | true =>
    obtain ⟨t, e⟩ := exec_next_of_completes hc
    rw [e] at h; cases h
  | false =>
    obtain ⟨g, e, hg⟩ := exec_fault_of_not_completes hc
    rw [e] at h; cases h
    exact hg

/-- No instruction is refused (R200): each one goes on or faults. -/
theorem exec_ne_refused (i : Instr) (s : State) (r : Refusal) : exec i s ≠ .refused r := by
  cases hc : completes i s with
  | true => obtain ⟨t, e⟩ := exec_next_of_completes hc; rw [e]; nofun
  | false => obtain ⟨f, e, -⟩ := exec_fault_of_not_completes hc; rw [e]; nofun

/-- No step is refused (R71, R76, R201). -/
theorem step_ne_refused (s : State) (r : Refusal) : step s ≠ .refused r := by
  obtain ⟨f, -, e⟩ | ⟨-, -, e⟩ | ⟨-, -, i, -, e⟩ | ⟨-, -, -, e⟩ := step_cases s <;> rw [e]
  case inr.inr.inl => exact exec_ne_refused i s.advance r
  all_goals nofun

end Sys2Proof.Machine

open Sys2Proof Sys2Proof.Machine

/-- Settles O52 (`exec_next_of_completes`, `exec_fault_of_not_completes`). -/
theorem instructionsCompleteExactlyWhenNoConditionHolds : Obligations.InstructionsCompleteExactlyWhenNoConditionHolds := by
  refine fun i s => ⟨exec_next_of_completes, fun h => ?_⟩
  obtain ⟨f, e, -⟩ := exec_fault_of_not_completes h
  exact ⟨f, e⟩

/-- Settles O53: the fault is the instruction's own row of R200's table (`tableFault_of_exec_fault`). -/
theorem faultRecordsFollowTheTable : Obligations.FaultRecordsFollowTheTable := by
  intro i s f h
  cases tableFault_of_exec_fault h with
  | drw => exact ⟨rfl, .inl ⟨rfl, rfl, .inl ⟨_, _, _, rfl⟩⟩⟩
  | ldVxMem => exact ⟨rfl, .inl ⟨rfl, rfl, .inr ⟨_, rfl⟩⟩⟩
  | ldB => exact ⟨rfl, .inr (.inl ⟨rfl, rfl, .inl ⟨_, rfl⟩⟩)⟩
  | ldMemVx => exact ⟨rfl, .inr (.inl ⟨rfl, rfl, .inr ⟨_, rfl⟩⟩)⟩
  | call => exact ⟨rfl, .inr (.inr (.inl ⟨rfl, rfl, _, rfl⟩))⟩
  | ret => exact ⟨rfl, .inr (.inr (.inr (.inl ⟨rfl, rfl, rfl⟩)))⟩
  | skp => exact ⟨rfl, .inr (.inr (.inr (.inr ⟨rfl, _, rfl, .inl rfl⟩)))⟩
  | sknp => exact ⟨rfl, .inr (.inr (.inr (.inr ⟨rfl, _, rfl, .inr rfl⟩)))⟩

end

section
/-! Schedules (R211, R212, R234, R237): what a session that runs through keeps, and which schedules run through. -/

namespace Sys2Proof.Machine

variable {s t : State} {x y : Session} {a : Transaction} {r : Response} {sched rest : List Transaction}

/-! ### The invariant of a session -/

/-- What every accepted call keeps. Before the Load no step was taken, so no key wait is pending that the Load's bytes could
break. -/
structure Session.Inv (x : Session) : Prop where
  machine_inv : x.machine.Inv
  idle_before_load : x.phase = .created → x.machine.kw = .idle

theorem keyWaitAtPc_of_idle (h : s.kw = .idle) : keyWaitAtPc s := fun hkw => absurd h hkw

theorem create_inv (p : Params) (d : Draw) : (Session.create p d).Inv where
  machine_inv := ⟨create_mem_wf p d, fun _ => keyWaitAtPc_of_idle rfl⟩
  idle_before_load _ := rfl

theorem load_kw (buf : List Byte) (s : State) : (load buf s).2.kw = s.kw := by
  unfold load
  split <;> rfl

/-- A Load while no key wait is pending keeps the machine's invariant (R236). -/
theorem load_inv {buf : List Byte} (hs : s.Inv) (hkw : s.kw = .idle) : (load buf s).2.Inv where
  mem_wf := load_mem_wf buf s hs.mem_wf
  key_wait _ := keyWaitAtPc_of_idle ((load_kw buf s).trans hkw)

/-- A faulted machine owes only its memory's canonical form (R201). -/
theorem afterFault_inv (s : State) (f : Fault) : (s.afterFault f).Inv where
  mem_wf := afterFault_mem_wf s f
  key_wait hf := nomatch hf

/-- A Step transaction keeps the machine's invariant, whether it goes on, faults or finds the machine faulted (R211). -/
theorem afterStep_inv {f : Option Fault} (hs : s.Inv) (h : afterStep s = .next (t, f)) : t.Inv := by
  obtain ⟨u, hu, e⟩ | ⟨g, -, -, e⟩ | ⟨g, -, -, e⟩ | ⟨q, -, e⟩ := afterStep_cases s <;> rw [e] at h <;> cases h
  case inl => exact stepKeepsTheInvariant s t hs hu
  case inr.inl => exact afterFault_inv s g
  case inr.inr.inl => exact hs

/-- Every accepted call keeps the session's invariant: the Load needs the phase, the Step the machine's own step, and no
other call writes what the invariant speaks of. -/
theorem Session.transact_inv (hx : x.Inv) (h : x.transact a = .next (y, r)) : y.Inv := by
  obtain ⟨buf, -, hp, rfl, -⟩ | ⟨k, -, rfl, -⟩ | ⟨f, -, -, hp, e, -⟩ | ⟨-, rfl, -⟩ | ⟨-, rfl, -⟩ | ⟨-, rfl, -⟩ :=
    Session.transact_next h
  case inl => exact ⟨load_inv hx.machine_inv (hx.idle_before_load hp), nofun⟩
  case inr.inr.inl => exact ⟨afterStep_inv hx.machine_inv e, fun hc => by rw [hp] at hc; cases hc⟩
  case inr.inl | inr.inr.inr.inl => exact ⟨⟨hx.machine_inv.mem_wf, hx.machine_inv.key_wait⟩, hx.idle_before_load⟩
  all_goals exact hx

theorem Session.run_inv (hx : x.Inv) (h : Session.run sched x = .next y) : y.Inv := by
  induction sched generalizing x with
  | nil => cases h; exact hx
  | cons a rest ih =>
    obtain ⟨z, r, hz, hrest⟩ := Session.run_cons_next h
    exact ih (Session.transact_inv hx hz) hrest

/-! ### Which calls are accepted -/

/-- A call other than a Load or a Step is accepted in every phase and leaves it (R211, log entry 17). -/
theorem Session.transact_other (x : Session) (hstep : a ≠ .step) (hload : ∀ b, a ≠ .load b) :
    ∃ y r, x.transact a = .next (y, r) ∧ y.phase = x.phase := by
  cases a with
  | load buf => exact absurd rfl (hload buf)
  | step => exact absurd rfl hstep
  | setKeys | tick | readDisplay | soundOn => exact ⟨_, _, rfl, rfl⟩

theorem Session.transact_before_load (hp : x.phase = .created) (ha : a ≠ .step ∧ ∀ b, a ≠ .load b) :
    ∃ y r, x.transact a = .next (y, r) ∧ y.phase = .created := by
  obtain ⟨hstep, hload⟩ := ha
  obtain ⟨y, r, e, hy⟩ := x.transact_other hstep hload
  exact ⟨y, r, e, hy.trans hp⟩

theorem Session.transact_load_created (hp : x.phase = .created) (buf : List Byte) :
    ∃ y r, x.transact (.load buf) = .next (y, r) ∧ y.phase = .loaded := by
  simp only [Session.transact, hp]
  exact ⟨_, _, rfl, rfl⟩

theorem Session.transact_step_created (hp : x.phase = .created) : x.transact .step = .refused .stepBeforeLoad := by
  simp only [Session.transact, hp]

/-- Once the Load was called a Step is accepted, whether it goes on, faults or finds the machine faulted (R211). -/
theorem Session.transact_step_accepted (hp : x.phase ≠ .created) :
    ∃ y r, x.transact .step = .next (y, r) ∧ y.phase = .stepped := by
  obtain ⟨s, ph⟩ := x
  rw [Session.transact_step hp]
  obtain ⟨t, h, -⟩ | ⟨f, h, hf, -⟩ | ⟨f, hf, -⟩ | ⟨q, h, -⟩ := afterStep_cases s
  · exact ⟨_, _, stepTransaction_of_next h, rfl⟩
  · exact ⟨_, _, stepTransaction_of_fault hf h, rfl⟩
  · exact ⟨_, _, stepTransaction_of_faulted hf, rfl⟩
  · exact absurd h (step_ne_refused s q)

/-- Once the Load was called every call but another Load is accepted, and the phase stays past `created` (R211, R237). -/
theorem Session.transact_after_load (hp : x.phase ≠ .created) (hload : ∀ b, a ≠ .load b) :
    ∃ y r, x.transact a = .next (y, r) ∧ y.phase ≠ .created := by
  by_cases hstep : a = .step
  · obtain ⟨y, r, e, hy⟩ := Session.transact_step_accepted hp
    exact ⟨y, r, hstep ▸ e, by rw [hy]; nofun⟩
  · obtain ⟨y, r, e, hy⟩ := x.transact_other hstep hload
    exact ⟨y, r, e, hy ▸ hp⟩

/-! ### Which schedules run through -/

theorem Session.run_cons_of_next (h : x.transact a = .next (y, r)) : Session.run (a :: rest) x = Session.run rest y := by
  simp only [Session.run, h]

/-- A schedule runs through when each of its calls is accepted in the phases of `P` and leads to one of them. -/
theorem Session.run_of_accepted {P : Phase → Prop}
    (accepted : ∀ a ∈ sched, ∀ x : Session, P x.phase → ∃ y r, x.transact a = .next (y, r) ∧ P y.phase)
    (hx : P x.phase) (rest : List Transaction) : ∃ y, P y.phase ∧ Session.run (sched ++ rest) x = Session.run rest y := by
  induction sched generalizing x with
  | nil => exact ⟨x, hx, rfl⟩
  | cons a sched ih =>
    obtain ⟨accept_head, accept_tail⟩ := List.forall_mem_cons.mp accepted
    obtain ⟨y, r, e, hy⟩ := accept_head x hx
    obtain ⟨z, hz, hrun⟩ := ih accept_tail hy
    exact ⟨z, hz, (Session.run_cons_of_next e).trans hrun⟩

/-- Without a Load the calls before the first Step leave the session where a Step is refused (D19). -/
theorem Session.run_step_without_load (hp : x.phase = .created) (hstep : .step ∈ sched)
    (hload : ∀ a ∈ sched, ∀ b, a ≠ .load b) : Session.run sched x = .refused .stepBeforeLoad := by
  induction sched generalizing x with
  | nil => cases hstep
  | cons a sched ih =>
    obtain ⟨load_head, load_tail⟩ := List.forall_mem_cons.mp hload
    by_cases ha : a = .step
    · simp only [Session.run, ha, Session.transact_step_created hp]
    · obtain ⟨y, r, e, hy⟩ := x.transact_other ha load_head
      rw [Session.run_cons_of_next e]
      exact ih (hy.trans hp) (List.mem_of_ne_of_mem (Ne.symm ha) hstep) load_tail

end Sys2Proof.Machine

open Sys2Proof Sys2Proof.Machine

/-- Settles O57: a session's invariant holds at creation and every schedule keeps it (`Session.run_inv`). -/
theorem everyScheduleKeepsTheInvariant : Obligations.EveryScheduleKeepsTheInvariant :=
  fun p d _ _ h => (Session.run_inv (create_inv p d) h).machine_inv

/-- Settles O59: the calls before the Load leave the phase at `created`, where the Load is accepted and a Step is not, and
from there every call but a Load is accepted (`Session.run_of_accepted`). -/
theorem stepsWaitForTheLoad : Obligations.StepsWaitForTheLoad := by
  refine ⟨fun _ => Session.transact_step_created, fun _ _ _ => Session.run_step_without_load rfl, ?_⟩
  intro before after buf p d hbefore hafter
  obtain ⟨x, hx, run_before⟩ := Session.run_of_accepted (P := (· = .created)) (x := Session.create p d)
    (fun a ha _ hp => Session.transact_before_load hp (hbefore a ha)) rfl (.load buf :: after)
  obtain ⟨y, r, e, hy⟩ := Session.transact_load_created hx buf
  have hloaded : y.phase ≠ .created := by rw [hy]; nofun
  obtain ⟨z, -, run_after⟩ := Session.run_of_accepted (P := (· ≠ .created))
    (fun a ha _ hp => Session.transact_after_load hp (hafter a ha)) hloaded []
  rw [List.append_nil] at run_after
  exact ⟨z, run_before.trans ((Session.run_cons_of_next e).trans run_after)⟩

end

section
/-! The Load (R236, R237): what it answers, and where in a schedule it is accepted. -/

namespace Sys2Proof.Machine

variable {x y : Session} {a : Transaction} {r : Response} {sched : List Transaction}

/-! ### What a Load answers -/

/-- A buffer that does not fit is rejected (R236). -/
theorem load_of_exceeds {buf : List Byte} (h : 4096 - 0x200 < buf.length) (s : State) : load buf s = (false, s) :=
  if_neg fun hfit => absurd (of_decide_eq_true hfit) (Nat.not_le_of_lt h)

/-- The Load answers whether the buffer fits (R236). -/
theorem load_fst (buf : List Byte) (s : State) : (load buf s).1 = decide (buf.length ≤ 4096 - 0x200) := by
  by_cases h : buf.length ≤ 4096 - 0x200
  · rw [load_of_fits h, decide_eq_true h]
  · rw [load_of_exceeds (Nat.lt_of_not_le h), decide_eq_false h]

/-- Before any Load and Step, the Load call is accepted and answers what the Load does (R237). -/
theorem Session.transact_load_of_created (hp : x.phase = .created) (buf : List Byte) :
    x.transact (.load buf) = .next (⟨(load buf x.machine).2, .loaded⟩, .loaded (load buf x.machine).1) := by
  simp only [Session.transact, hp]

/-- After a Load or a Step, the Load call is refused, by the reason of the phase (R237). -/
theorem Session.transact_load_refused (hp : x.phase ≠ .created) (buf : List Byte) :
    x.transact (.load buf) = .refused .secondLoad ∨ x.transact (.load buf) = .refused .loadAfterStep := by
  obtain ⟨s, ph⟩ := x
  cases ph
  case created => exact absurd rfl hp
  case loaded => exact .inl rfl
  case stepped => exact .inr rfl

/-! ### The phase past `created` -/

/-- An accepted Load or Step leaves `created`, and no call returns to it. -/
theorem Session.transact_leaves_created (h : x.transact a = .next (y, r))
    (hx : x.phase ≠ .created ∨ a = .step ∨ ∃ b, a = .load b) : y.phase ≠ .created := by
  obtain ⟨b, -, -, rfl, -⟩ | ⟨k, rfl, rfl, -⟩ | ⟨f, -, -, hp, -, -⟩ | ⟨rfl, rfl, -⟩ | ⟨rfl, rfl, -⟩ | ⟨rfl, rfl, -⟩ :=
    Session.transact_next h
  case inl => nofun
  case inr.inr.inl => rw [hp]; nofun
  all_goals simpa using hx

/-- So a schedule that holds a Load or a Step ends past `created`. -/
theorem Session.run_leaves_created (h : Session.run sched x = .next y)
    (hx : x.phase ≠ .created ∨ ∃ a ∈ sched, a = .step ∨ ∃ b, a = .load b) : y.phase ≠ .created := by
  induction sched generalizing x with
  | nil => cases h; simpa using hx
  | cons a rest ih =>
    obtain ⟨z, r, hz, hrest⟩ := Session.run_cons_next h
    rw [List.exists_mem_cons_iff, ← or_assoc] at hx
    exact ih hrest (hx.imp_left (Session.transact_leaves_created hz))

end Sys2Proof.Machine

open Sys2Proof Sys2Proof.Machine

/-- Settles O40: a Load is one `Memory.writeBytes` at 0x200 (`load_of_fits`) or nothing (`load_of_exceeds`). -/
theorem loadCopiesOrRejects : Obligations.LoadCopiesOrRejects := by
  refine fun buf s => ⟨fun hfit => ?_, fun hlong => load_of_exceeds hlong s⟩
  rw [load_of_fits hfit]
  exact ⟨rfl, rfl, writeBytes_byteAt_program s buf, fun _ => writeBytes_byteAt_other s buf⟩

/-- Settles O41: the phase alone decides whether a Load is accepted. A Load or a Step leaves `created` for good
(`Session.run_leaves_created`), and the other calls stay in it (`Session.transact_before_load`). -/
theorem loadIsAcceptedOnlyFirst : Obligations.LoadIsAcceptedOnlyFirst := by
  refine ⟨fun sched x y h hmem => Session.transact_load_refused (Session.run_leaves_created h (.inr hmem)),
    fun sched p d hother => ?_⟩
  obtain ⟨y, hy, hrun⟩ := Session.run_of_accepted (P := (· = .created)) (x := Session.create p d)
    (fun a ha _ hp => Session.transact_before_load hp (hother a ha)) rfl []
  rw [List.append_nil] at hrun
  exact ⟨y, hrun, fun buf => ⟨_, by rw [Session.transact_load_of_created hy, load_fst]⟩⟩

end

section
/-! The end of a run (R246): JP to its own address. -/

namespace Sys2Proof.Machine

variable {s : State}

/-! ### The word JP PC -/

/-- The low 12 bits of an address of memory are the address (R50). -/
theorem setWidth_toNat_of_address {pc : Word} (h : pc.toNat < 4096) : (pc.setWidth 12).toNat = pc.toNat :=
  (BitVec.toNat_setWidth 12 pc).trans (Nat.mod_eq_of_lt h)

theorem jpWord_eq_encode {pc : Word} (h : pc.toNat < 4096) : 0x1000 + pc = encode (.jp (pc.setWidth 12)) := by
  apply BitVec.eq_of_toNat_eq
  rw [encode, formatA_toNat, setWidth_toNat_of_address h]
  simp only [BitVec.ofNat_eq_ofNat, BitVec.toNat_add, BitVec.toNat_ofNat]
  omega

theorem zext16_setWidth {pc : Word} (h : pc.toNat < 4096) : zext16 (pc.setWidth 12) = pc :=
  BitVec.eq_of_toNat_eq ((zext16_toNat _).trans (setWidth_toNat_of_address h))

/-! ### Steps and ticks at the end of a run -/

theorem endOfRun_iff : endOfRun s = true ↔ s.faulted = none ∧ s.kw = .idle ∧ s.pc.toNat ≤ 0xFFE ∧
    wordOfBytes (s.byteAt s.pc.toNat) (s.byteAt (s.pc.toNat + 1)) = 0x1000 + s.pc := by
  simp [endOfRun, and_assoc]

/-- JP PC jumps back over the advance to the address it stands at (R71, R102). -/
theorem step_of_endOfRun (h : endOfRun s = true) : step s = .next s := by
  obtain ⟨hf, -, hpc, hword⟩ := endOfRun_iff.mp h
  have hlt : s.pc.toNat < 4096 := by omega
  rw [jpWord_eq_encode hlt] at hword
  calc step s = exec (.jp (s.pc.setWidth 12)) s.advance := step_of_decode hf (by omega) (hword ▸ decode_encode _)
    _ = .next (s.advance.jump s.pc) := by rw [exec, execJp, zext16_setWidth hlt]
    _ = .next s := rfl

/-- A state that the step leaves as it is runs on without a fault. -/
theorem runsSafely_of_step_self (h : step s = .next s) (k : Nat) : runsSafely k s = true := by
  induction k with
  | zero => rfl
  | succ k ih => simp only [runsSafely, h, ih]

/-- A tick touches the timers only, and the end of a run does not depend on them (R176). -/
theorem endOfRun_tick (s : State) : endOfRun (tick s) = endOfRun s := rfl

end Sys2Proof.Machine

open Sys2Proof Sys2Proof.Machine

/-- Settles O58 (`step_of_endOfRun`): a step that returns its state returns it again every time. -/
theorem endOfRunIsLeftUnchanged : Obligations.EndOfRunIsLeftUnchanged := fun s h =>
  have hstep := step_of_endOfRun h
  ⟨hstep, runsSafely_of_step_self hstep, (endOfRun_tick s).trans h⟩

end

section
/-! Reset as a creation (R36, R230, log entries 1 to 10): a creation that draws 0 for every byte lists no byte. -/

namespace Sys2Proof.Machine

variable (p : Params) (d : Draw)

theorem Memory.unlisted_font (j : Nat) (h : j < 80) : Memory.unlisted p (p.fontBase.val + j) = p.fontData[j] := by
  simp [Memory.unlisted, h]

theorem Memory.unlisted_outside_font {a : Nat} (hout : a < p.fontBase.val ∨ p.fontBase.val + 80 ≤ a) :
    Memory.unlisted p a = 0 :=
  dif_neg (by omega)

/-- Creation lists nothing past memory (R50). -/
theorem create_byteAt_past {a : Nat} (ha : 4096 ≤ a) : (State.create p d).byteAt a = Memory.unlisted p a := by
  have hfont := p.fontBase.isLt
  refine (Memory.read_writeBytes p _ _ _ _).trans ?_
  rw [dif_neg (by simp; omega), Memory.read_ofBytes, if_neg (by omega)]

/-- Where a creation draws 0 for every byte, each address reads what an unlisted one does: the glyph byte in the font's
region, 0 elsewhere. -/
theorem create_byteAt_unlisted (hd : ∀ a, d.mem a = 0) (a : Nat) :
    (State.create p d).byteAt a = Memory.unlisted p a := by
  by_cases hpast : 4096 ≤ a
  · exact create_byteAt_past p d hpast
  by_cases hout : a < p.fontBase.val ∨ p.fontBase.val + 80 ≤ a
  · rw [create_byteAt_drawn p d (by omega) hout, hd, Memory.unlisted_outside_font p hout]
  · obtain ⟨j, rfl⟩ := Nat.exists_eq_add_of_le (show p.fontBase.val ≤ a by omega)
    have hj : j < 80 := by omega
    rw [create_byteAt_font p d j hj, Memory.unlisted_font p j hj]

/-- Canonical memory is fixed by its bytes (`Memory.wf_ext`), so the created memory is the empty list. -/
theorem create_mem_nil (hd : ∀ a, d.mem a = 0) : (State.create p d).mem = [] :=
  Memory.wf_ext p _ [] (create_mem_wf p d) rfl (create_byteAt_unlisted p d hd)

end Sys2Proof.Machine

open Sys2Proof Sys2Proof.Machine

/-- Settles O43: every field but memory agrees by definition, and the named draw's memory is empty (`create_mem_nil`). -/
theorem resetIsTheNamedCreation : Obligations.ResetIsTheNamedCreation :=
  calc State.reset
    _ = { State.create Params.conventional Draw.named with mem := [] } := rfl
    _ = State.create Params.conventional Draw.named := by
      rw [← create_mem_nil Params.conventional Draw.named fun _ => rfl]

end
